-- ==== Sys2Proof/Word.lean ====
section
/-! DEFINITION. The word types of the block: bytes, checksum values, operation words, register addresses. -/

namespace Sys2Proof

/-- An unsigned 8-bit value, 0 to 255 (`00_scope.md` R9). -/
abbrev Byte := BitVec 8

/-- A 16-bit checksum value (`00_scope.md` R7, "`CRC` width"). -/
abbrev Crc := BitVec 16

/-- A 13-bit bus operation word `W[12] A[11:8] D[7:0]` (`30_encoding.md` R61). -/
abbrev OpWord := BitVec 13

/-- A 4-bit register address (`20_memory.md` R40 (a)). -/
abbrev RegAddr := BitVec 4

end Sys2Proof
end

