-- ==== Sys2Proof/Config.lean ====
section
/-! DEFINITION. The fixed parameters of the block (`00_scope.md` R7, R8). Nothing in the spec is left to an
implementation but `T_OP`, the time an operation takes, which no rule uses; so there is no free value here. -/

namespace Sys2Proof.Config

/-- The checksum polynomial, hardwired (R7, R8; `90_conflicts.md` C4). -/
def poly : Crc := 0x8408#16

/-- The value a checksum starts from (R7, "The running value starts at 0"). -/
def crcInit : Crc := 0x0000#16

/-- The first byte of every frame, hardwired (R7, R8). -/
def sync : Byte := 0x02#8

/-- The second byte of every frame, hardwired (R7, R8). -/
def addr : Byte := 0x03#8

/-- Frame bytes that are not payload (R7). -/
def overhead : Nat := 6

/-- The longest payload (R7; `90_conflicts.md` C1). -/
def maxPayload : Nat := 249

/-- The longest frame, and the size of the frame buffer (R7; `90_conflicts.md` C3). -/
def maxFrame : Nat := 255

/-- The value at which `PLEN` saturates: "more than 249" (R7, `10_state.md` R22). -/
def plenSaturated : Byte := 250#8

end Sys2Proof.Config
end

