-- ==== Sys2Proof/Machine/Codec.lean ====
section
/-! DEFINITION. The two pure functions of the source's `FrameCodec`: the checksum (`40_crc_engine.md` R80 to R82)
and the frame (`41_frame_assembler.md` R100, R101). They hold no state (R83, R103). -/

namespace Sys2Proof.Machine

/-- `CRC[7:0]`, the byte that stands at `CRC_LOW` (`20_memory.md` R43). -/
def crcLow (v : Crc) : Byte := v.extractLsb' 0 8

/-- `CRC[15:8]`, the byte that stands at `CRC_HIGH` (`20_memory.md` R43). -/
def crcHigh (v : Crc) : Byte := v.extractLsb' 8 8

/-- `crc_bit` (R80). -/
def crcBit (v : Crc) : Crc :=
  if v.getLsbD 0 then (v >>> 1) ^^^ Config.poly else v >>> 1

/-- `k` bit steps, one after the other (R81). -/
def crcBits : Nat → Crc → Crc
  | 0, v => v
  | k + 1, v => crcBits k (crcBit v)

/-- `crc_byte` (R81): the byte, zero-extended, is XORed in once; then exactly eight bit steps. -/
def crcByte (v : Crc) (b : Byte) : Crc :=
  crcBits 8 (v ^^^ b.setWidth 16)

/-- The running value after the bytes of a sequence, first byte first, from any start value (the loop of R82). -/
def crcRun (v : Crc) : List Byte → Crc
  | [] => v
  | b :: bs => crcRun (crcByte v b) bs

/-- `crc16` (R82): the running value starts at 0; no final XOR, no reversal, no swap. -/
def crc16 (bs : List Byte) : Crc := crcRun Config.crcInit bs

/-- The `n - 2` bytes of a frame before its checksum: header, command, payload (R101, `h`). -/
def frameHead (c : Byte) (p : List Byte) : List Byte :=
  [Config.sync, Config.addr, BitVec.ofNat 8 (p.length + Config.overhead), c] ++ p

/-- A frame from the bytes before its checksum: the checksum of them follows, low byte first (R102, R43). -/
def withChecksum (h : List Byte) : List Byte :=
  h ++ [crcLow (crc16 h), crcHigh (crc16 h)]

/-- `build_frame` (R100, R101): no frame at all for a payload of more than 249 bytes. -/
def buildFrame (c : Byte) (p : List Byte) : Option (List Byte) :=
  if p.length ≤ Config.maxPayload then some (withChecksum (frameHead c p)) else none

end Sys2Proof.Machine
end

