-- ==== Sys2Proof/Syntax.lean ====
section
/-! DEFINITION. The syntax: one constructor of `Instr` per row of `spec/opcode_table.json`, the registers of the
register map, what an encoding is, and the events the host presents. -/

namespace Sys2Proof

/-- The thirteen bus operations (`30_encoding.md` R62) and the ten command pseudo-operations
(`42_ccnet_commands.md` R122 to R131). An operation whose data byte is ignored has no operand (R64). -/
inductive Instr where
  /-- `CRCINIT` (R84). -/
  | crcInit
  /-- `CRCUPD b` (R85). -/
  | crcUpd (b : Byte)
  /-- `RDCRCL` (R86). -/
  | rdCrcL
  /-- `RDCRCH` (R87). -/
  | rdCrcH
  /-- `PLCLR` (R104). -/
  | plClr
  /-- `PLPUSH b` (R105). -/
  | plPush (b : Byte)
  /-- `RDPLEN` (R107). -/
  | rdPlen
  /-- `BUILD c` (R106). -/
  | build (c : Byte)
  /-- `RDLEN` (R108). -/
  | rdLen
  /-- `RDPTR` (R109). -/
  | rdPtr
  /-- `WRPTR p` (R110). -/
  | wrPtr (p : Byte)
  /-- `RDFRB` (R111). -/
  | rdFrb
  /-- `RDSTAT` (R112). -/
  | rdStat
  /-- `C.RESET` (R122): the frame that asks the device to reset, not the block's reset input. -/
  | cReset
  /-- `C.STATUS` (R123). -/
  | cStatus
  /-- `C.SECURITY m` (R124). -/
  | cSecurity (m : Byte)
  /-- `C.POLL` (R125). -/
  | cPoll
  /-- `C.ENABLE m` (R126). -/
  | cEnable (m : Byte)
  /-- `C.STACK` (R127). -/
  | cStack
  /-- `C.RETURN` (R128). -/
  | cReturn
  /-- `C.IDENT` (R129). -/
  | cIdent
  /-- `C.ACK` (R130). -/
  | cAck
  /-- `C.NSC` (R131). -/
  | cNsc
  deriving DecidableEq, Repr

/-- The twelve registers the host can address (`30_encoding.md` R63). -/
inductive Reg where
  | crcInit | crcData | crcLo | crcHi | plClr | plData
  | plLen | frBuild | frLen | frPtr | frData | status
  deriving DecidableEq, Repr

/-- The access column of the register map (R63). -/
inductive Access where
  /-- Read-only. -/
  | ro
  /-- Write-only. -/
  | wo
  /-- Read and write. -/
  | rw
  deriving DecidableEq, Repr

/-- What encodes an instruction: a bus operation's word (R61), or, for a command pseudo-operation, the bytes of
its frame in offset order (R74). -/
inductive Code where
  | word (w : OpWord)
  | frame (bytes : List Byte)
  deriving DecidableEq, Repr

/-- What a code stands for. Decoding a word is total (R66): one of the thirteen operations, a reserved read or a
reserved write. -/
inductive Decoded where
  | instr (i : Instr)
  | reservedRead (a : RegAddr)
  | reservedWrite (a : RegAddr) (d : Byte)
  deriving DecidableEq, Repr

/-- One event of the environment: the host presents a code at the port (R60), or the reset input is asserted
(R75, `70_reset_and_hazards.md` R160). -/
inductive HostEvent where
  | present (c : Code)
  | reset
  deriving DecidableEq, Repr

end Sys2Proof
end

