-- ==== Sys2Proof/Machine/Operands.lean ====
section
/-! DEFINITION. The operand forms: the three fields of an operation word (`30_encoding.md` R61), and where a
command's operand stands in its payload (R70, R71). -/

namespace Sys2Proof.Machine

/-- The field `W`, bit 12: the direction, true for a write (R61). -/
def opIsWrite (w : OpWord) : Bool := w.getLsbD 12

/-- The field `A`, bits 11:8 (R61). -/
def opAddr (w : OpWord) : RegAddr := w.extractLsb' 8 4

/-- The field `D`, bits 7:0: the write data (R61); ignored by every read and by the strobes (R64). -/
def opData (w : OpWord) : Byte := w.extractLsb' 0 8

/-- The word of a write of data `d` to address `a` (R61, `0x1add`). -/
def writeWord (a : RegAddr) (d : Byte) : OpWord := (1#1 ++ a) ++ d

/-- The canonical word of a read of address `a` (R61, `0x0a00`; R64). -/
def readWord (a : RegAddr) : OpWord := (0#1 ++ a) ++ 0x00#8

/-- The payload of SetSecurity (R70): the mask, unchanged, at index 2. -/
def securityPayload (m : Byte) : List Byte := [0x00#8, 0x00#8, m]

/-- The payload of EnableBillTypes (R70): the mask, unchanged, at index 2. It is the caller's (R132). -/
def enablePayload (m : Byte) : List Byte := [0x00#8, 0x00#8, m, 0x00#8, 0x00#8, 0x00#8]

/-- The command code map (R71): the code and the payload of each command pseudo-operation; none for a bus
operation. -/
def commandOf : Instr → Option (Byte × List Byte)
  | .cReset => some (0x30#8, [])
  | .cStatus => some (0x31#8, [])
  | .cSecurity m => some (0x32#8, securityPayload m)
  | .cPoll => some (0x33#8, [])
  | .cEnable m => some (0x34#8, enablePayload m)
  | .cStack => some (0x35#8, [])
  | .cReturn => some (0x36#8, [])
  | .cIdent => some (0x37#8, [])
  | .cAck => some (0x00#8, [])
  | .cNsc => some (0xFF#8, [])
  | .crcInit => none
  | .crcUpd _ => none
  | .rdCrcL => none
  | .rdCrcH => none
  | .plClr => none
  | .plPush _ => none
  | .rdPlen => none
  | .build _ => none
  | .rdLen => none
  | .rdPtr => none
  | .wrPtr _ => none
  | .rdFrb => none
  | .rdStat => none

end Sys2Proof.Machine
end

