-- ==== Sys2Proof/WellFormed.lean ====
section
/-! DEFINITION. Well-formedness. Every operand of `Instr` is a byte and every byte is legal (`30_encoding.md` R63:
"There is no field with restricted legal values"), so an instruction is well formed by its type. What can be ill
formed is a code the host presents as a frame: the five checks of R67 to R69 and the code map's check of R71. -/

namespace Sys2Proof

/-- The frame's length is 6 to 255 bytes (R67). -/
def Frame.lengthOk (f : List Byte) : Bool :=
  Config.overhead ≤ f.length && f.length ≤ Config.maxFrame

/-- The byte at offset 0 is `SYNC` (R68). -/
def Frame.syncOk (f : List Byte) : Bool := f[0]? == some Config.sync

/-- The byte at offset 1 is `ADDR` (R68). -/
def Frame.addrOk (f : List Byte) : Bool := f[1]? == some Config.addr

/-- The byte at offset 2 counts the whole frame (R68, R69). -/
def Frame.lengthByteOk (f : List Byte) : Bool := (f[2]?.map BitVec.toNat) == some f.length

/-- The last two bytes are the checksum of all bytes before them, low byte first (R68). -/
def Frame.checksumOk (f : List Byte) : Bool :=
  f == Machine.withChecksum (f.take (f.length - 2))

/-- The command byte and the payload are a row of the command code map (R71, R70). -/
def Frame.listedOk (f : List Byte) : Bool :=
  let payload := (f.drop 4).take (f.length - 6)
  match f[3]? with
  | none => false
  | some c =>
    ([0x30#8, 0x31#8, 0x33#8, 0x35#8, 0x36#8, 0x37#8, 0x00#8, 0xFF#8].contains c && payload.isEmpty)
      || (c == 0x32#8 && payload == Machine.securityPayload (f.getD 6 0))
      || (c == 0x34#8 && payload == Machine.enablePayload (f.getD 6 0))

/-- A CCNET command frame (R67 to R69), of any command code. -/
def Frame.wf (f : List Byte) : Bool :=
  Frame.lengthOk f && Frame.syncOk f && Frame.addrOk f && Frame.lengthByteOk f && Frame.checksumOk f

/-- A code is well formed if it is an operation word, all of which are (R66), or the frame of a listed command. -/
def Code.wf : Code → Bool
  | .word _ => true
  | .frame f => Frame.wf f && Frame.listedOk f

end Sys2Proof
end

