-- ==== Sys2Proof/Decode.lean ====
section
/-! DEFINITION. The decoder, total on every code, rejecting by name; then the encoder, written from the encoding
tables (`30_encoding.md` R61 to R71, R74 and the rows of `opcode_table.json`). -/

namespace Sys2Proof

/-- Why a code that is no word of 13 bits stands for nothing. Raised by `decodeFrame`; safe, since the machine stops. -/
inductive Reject where
  /-- Fewer than the six bytes every frame has (R67). -/
  | tooShort
  /-- The byte at offset 0 is not `SYNC` (R68). -/
  | badSync
  /-- The byte at offset 1 is not `ADDR` (R68). -/
  | badAddress
  /-- The byte at offset 2 is not the frame's length (R69). -/
  | badLength
  /-- The last two bytes are not the checksum of the others (R68). -/
  | badChecksum
  /-- A command code outside the ten of R71: no row of the opcode table. -/
  | unlistedCode (c : Byte)
  /-- A listed command with a payload of another shape (R71). -/
  | payloadShape (c : Byte)
  deriving DecidableEq, Repr

/-- The register at an address (R63); none for the reserved 0xC to 0xF. -/
def Reg.ofAddr (a : RegAddr) : Option Reg :=
  match a.toNat with
  | 0x0 => some .crcInit
  | 0x1 => some .crcData
  | 0x2 => some .crcLo
  | 0x3 => some .crcHi
  | 0x4 => some .plClr
  | 0x5 => some .plData
  | 0x6 => some .plLen
  | 0x7 => some .frBuild
  | 0x8 => some .frLen
  | 0x9 => some .frPtr
  | 0xA => some .frData
  | 0xB => some .status
  | _ => none

/-- The address of a register (R63). -/
def Reg.addr : Reg → RegAddr
  | .crcInit => 0x0#4
  | .crcData => 0x1#4
  | .crcLo => 0x2#4
  | .crcHi => 0x3#4
  | .plClr => 0x4#4
  | .plData => 0x5#4
  | .plLen => 0x6#4
  | .frBuild => 0x7#4
  | .frLen => 0x8#4
  | .frPtr => 0x9#4
  | .frData => 0xA#4
  | .status => 0xB#4

/-- The access column of the register map (R63). -/
def Reg.access : Reg → Access
  | .crcInit => .wo
  | .crcData => .wo
  | .crcLo => .ro
  | .crcHi => .ro
  | .plClr => .wo
  | .plData => .wo
  | .plLen => .ro
  | .frBuild => .wo
  | .frLen => .ro
  | .frPtr => .rw
  | .frData => .ro
  | .status => .ro

/-- The operation a write of `d` to a register is (R62); none where the register is read-only (R65). -/
def writeOp (r : Reg) (d : Byte) : Option Instr :=
  match r with
  | .crcInit => some .crcInit
  | .crcData => some (.crcUpd d)
  | .crcLo => none
  | .crcHi => none
  | .plClr => some .plClr
  | .plData => some (.plPush d)
  | .plLen => none
  | .frBuild => some (.build d)
  | .frLen => none
  | .frPtr => some (.wrPtr d)
  | .frData => none
  | .status => none

/-- The operation a read of a register is (R62); none where the register is write-only (R65). -/
def readOp (r : Reg) : Option Instr :=
  match r with
  | .crcInit => none
  | .crcData => none
  | .crcLo => some .rdCrcL
  | .crcHi => some .rdCrcH
  | .plClr => none
  | .plData => none
  | .plLen => some .rdPlen
  | .frBuild => none
  | .frLen => some .rdLen
  | .frPtr => some .rdPtr
  | .frData => some .rdFrb
  | .status => some .rdStat

/-- Decoding an operation word (R66): an operation of R62, or a reserved write or read (R65). -/
def decodeWord (w : OpWord) : Decoded :=
  let a := Machine.opAddr w
  let d := Machine.opData w
  if Machine.opIsWrite w then
    match (Reg.ofAddr a).bind (writeOp · d) with
    | some i => .instr i
    | none => .reservedWrite a d
  else
    match (Reg.ofAddr a).bind readOp with
    | some i => .instr i
    | none => .reservedRead a

/-- A command without operand: its payload is empty (R71). -/
def plainCommand (c : Byte) (i : Instr) (payload : List Byte) : Except Reject Instr :=
  if payload = [] then .ok i else .error (.payloadShape c)

/-- A command whose operand is the mask at payload index 2, all other payload bytes being zero (R70). -/
def maskCommand (c : Byte) (i : Byte → Instr) (shape : Byte → List Byte) (payload : List Byte) :
    Except Reject Instr :=
  match payload[2]? with
  | none => .error (.payloadShape c)
  | some m => if payload = shape m then .ok (i m) else .error (.payloadShape c)

/-- The command code map, read from a frame's command byte and payload (R71). -/
def decodeCommand (c : Byte) (payload : List Byte) : Except Reject Instr :=
  if c = 0x30#8 then plainCommand c .cReset payload
  else if c = 0x31#8 then plainCommand c .cStatus payload
  else if c = 0x32#8 then maskCommand c .cSecurity Machine.securityPayload payload
  else if c = 0x33#8 then plainCommand c .cPoll payload
  else if c = 0x34#8 then maskCommand c .cEnable Machine.enablePayload payload
  else if c = 0x35#8 then plainCommand c .cStack payload
  else if c = 0x36#8 then plainCommand c .cReturn payload
  else if c = 0x37#8 then plainCommand c .cIdent payload
  else if c = 0x00#8 then plainCommand c .cAck payload
  else if c = 0xFF#8 then plainCommand c .cNsc payload
  else .error (.unlistedCode c)

/-- Decoding the bytes of a frame (R68, R69, R71): the fields by offset, then the checksum, then the command. -/
def decodeFrame (f : List Byte) : Except Reject Instr :=
  match f with
  | sync :: addr :: len :: c :: rest =>
    if rest.length < 2 then .error .tooShort
    else if sync ≠ Config.sync then .error .badSync
    else if addr ≠ Config.addr then .error .badAddress
    else if len.toNat ≠ rest.length + 4 then .error .badLength
    else
      let payload := rest.take (rest.length - 2)
      let v := Machine.crc16 ([sync, addr, len, c] ++ payload)
      if rest.drop (rest.length - 2) ≠ [Machine.crcLow v, Machine.crcHigh v] then .error .badChecksum
      else decodeCommand c payload
  | _ => .error .tooShort

/-- The decoder: total on every code. -/
def decode : Code → Except Reject Decoded
  | .word w => .ok (decodeWord w)
  | .frame f =>
    match decodeFrame f with
    | .ok i => .ok (.instr i)
    | .error r => .error r

/-- The encoder, row by row of `opcode_table.json`: the canonical word of each bus operation (R62, R64), the
bytes of each command's frame (R122 to R131). -/
def encode : Instr → Code
  | .crcInit => .word 0x1000#13
  | .crcUpd b => .word (0x11#5 ++ b)
  | .rdCrcL => .word 0x0200#13
  | .rdCrcH => .word 0x0300#13
  | .plClr => .word 0x1400#13
  | .plPush b => .word (0x15#5 ++ b)
  | .rdPlen => .word 0x0600#13
  | .build c => .word (0x17#5 ++ c)
  | .rdLen => .word 0x0800#13
  | .rdPtr => .word 0x0900#13
  | .wrPtr p => .word (0x19#5 ++ p)
  | .rdFrb => .word 0x0A00#13
  | .rdStat => .word 0x0B00#13
  | .cReset => .frame [0x02#8, 0x03#8, 0x06#8, 0x30#8, 0x41#8, 0xB3#8]
  | .cStatus => .frame [0x02#8, 0x03#8, 0x06#8, 0x31#8, 0xC8#8, 0xA2#8]
  | .cSecurity m => .frame (Machine.withChecksum [0x02#8, 0x03#8, 0x09#8, 0x32#8, 0x00#8, 0x00#8, m])
  | .cPoll => .frame [0x02#8, 0x03#8, 0x06#8, 0x33#8, 0xDA#8, 0x81#8]
  | .cEnable m => .frame (Machine.withChecksum
      [0x02#8, 0x03#8, 0x0C#8, 0x34#8, 0x00#8, 0x00#8, m, 0x00#8, 0x00#8, 0x00#8])
  | .cStack => .frame [0x02#8, 0x03#8, 0x06#8, 0x35#8, 0xEC#8, 0xE4#8]
  | .cReturn => .frame [0x02#8, 0x03#8, 0x06#8, 0x36#8, 0x77#8, 0xD6#8]
  | .cIdent => .frame [0x02#8, 0x03#8, 0x06#8, 0x37#8, 0xFE#8, 0xC7#8]
  | .cAck => .frame [0x02#8, 0x03#8, 0x06#8, 0x00#8, 0xC2#8, 0x82#8]
  | .cNsc => .frame [0x02#8, 0x03#8, 0x06#8, 0xFF#8, 0xBA#8, 0x8D#8]

/-- The first `k` bytes of a number, the lowest first. -/
def bytesOf : Nat → Nat → List Byte
  | 0, _ => []
  | k + 1, w => BitVec.ofNat 8 (w % 256) :: bytesOf k (w / 256)

/-- The code whose bits are `w` in the numbering of the opcode table: at most 16 bits hold an operation word in
their low 13 (a number of more bits is no word), more bits hold a frame's bytes, the first byte in bits 7 to 0.
DESIGN CHOICE (log entry 13): the spec gives operation words no byte order and numbers no frame. -/
def codeOfTable (nbits w : Nat) : Code :=
  if nbits ≤ 16 ∧ w < 8192 then .word (BitVec.ofNat 13 w) else .frame (bytesOf ((nbits + 7) / 8) w)

/-- The instruction the decoder reads from a row's bits; none where it refuses, and none for a reserved access,
which is no row of the table. -/
def decodeTableWord (nbits w : Nat) : Option Instr :=
  match decode (codeOfTable nbits w) with
  | .ok (.instr i) => some i
  | .ok (.reservedRead _) => none
  | .ok (.reservedWrite _ _) => none
  | .error _ => none

end Sys2Proof
end

