-- ==== Sys2Proof/Machine/Memory.lean ====
section
/-! DEFINITION. The frame buffer as plain data (`10_state.md` R26, `20_memory.md` R40): pairs of offset and byte in
one canonical form. An unlisted offset has NO value: reset leaves every byte unspecified (R33, R161) and the spec lets
a model say so (R52, `93_implementation_defined.md` U1). DESIGN CHOICE, safe (log entry 4). -/

namespace Sys2Proof.Machine

/-- A byte memory: offset and byte, offsets strictly rising. -/
abbrev Memory := List Host.Cell

/-- The byte at an offset; none where nothing has been written since reset. -/
def Memory.read : Memory → Nat → Option Byte
  | [], _ => none
  | (k, v) :: m, a => if k = a then some v else Memory.read m a

/-- The memory with one byte written, in canonical form again. -/
def Memory.write : Memory → Nat → Byte → Memory
  | [], a, b => [(a, b)]
  | (k, v) :: m, a, b =>
    if a < k then (a, b) :: (k, v) :: m
    else if a = k then (a, b) :: m
    else (k, v) :: Memory.write m a b

/-- The canonical form: offsets strictly rise, and each exists (0 to 254, R26). No listed entry can equal what an
unlisted offset reads as, since that is no byte. -/
abbrev Memory.wf (m : Memory) : Prop :=
  m.Pairwise (fun x y => x.1 < y.1) ∧ ∀ x ∈ m, x.1 < Config.maxFrame

end Sys2Proof.Machine
end

