-- ==== Sys2Proof/Machine/State.lean ====
section
/-! DEFINITION. The block's state as plain data, the record of the host's port that wraps it, the machine's stops, and
the state after reset. -/

namespace Sys2Proof.Machine

/-- The block's architectural state: exactly the six items of `10_state.md` R20, and nothing else (R34). -/
structure Block where
  /-- `CRC`, the running checksum (R21). -/
  crc : Crc
  /-- `PLEN`, payload bytes gathered; 250 means more than 249 (R22). -/
  plen : Byte
  /-- `LEN`, the length of the valid frame; 0 means none (R23). -/
  len : Byte
  /-- `RP`, the read pointer (R24). -/
  rp : Byte
  /-- `TOOLARGE`, the FrameTooLarge condition (R25). -/
  toolarge : Bool
  /-- `FB`, the frame buffer (R26). -/
  fb : Memory
  deriving DecidableEq, Repr

/-- The host's side of the port, no state of the block: the stream of events and the reset input are parameters of the
block's step (R34), which `blockStep` takes as such; the host interface's step of a state alone must find the next
event, and leave the byte read, beside the block (log entries 1 and 2). -/
structure Port where
  /-- What the host presents next, first event first (R34, `20_memory.md` R48). -/
  pending : List HostEvent
  /-- The bytes read operations have returned, oldest first (R60, `70_reset_and_hazards.md` R175). -/
  returned : List Byte
  deriving DecidableEq, Repr

/-- The machine the host interface runs: the block, and the port that feeds it. -/
structure State extends Block, Port
  deriving DecidableEq, Repr

/-- Why the machine stops. FrameTooLarge is no stop: the block goes on after it (`60_exceptions.md` R145). -/
inductive Fault where
  /-- Raised by `BUILD` and `RDFRB` when they read a byte of `FB` that nothing has written since reset. Safe: the
  spec allows it (`20_memory.md` R52) and no state that the invariants of `10_state.md` R32 hold of reaches it. -/
  | unwrittenFrameByte (offset : Nat)
  /-- Raised by the accesses to `FB` at an offset above 254, which does not exist (`20_memory.md` R40). Safe: no
  operation forms such an offset in any state (R41). -/
  | noSuchFrameOffset (offset : Nat)
  deriving DecidableEq, Repr

/-- Why the machine gives a step no meaning. -/
inductive Refusal where
  /-- Raised by `exec` for an instruction that has no meaning yet. Safe: the machine stops. -/
  | notModelled (mnemonic : String)
  /-- Raised by `step` when the host presents bytes that encode no row of the opcode table. Safe: the machine
  stops, and the block's port has no such access (log entry 12). -/
  | notAnEncoding (why : Reject)
  deriving DecidableEq, Repr

/-- What an operation of the block gives: the block after it, and the read bytes it returned (`30_encoding.md` R60). -/
structure Reply where
  block : Block
  bytes : List Byte
  deriving DecidableEq, Repr

/-- The outcome of an operation on the block. -/
abbrev Effect := Host.Outcome Reply Fault Refusal

/-- The outcome of a meaning on the machine. -/
abbrev Out := Host.Outcome State Fault Refusal

/-- The block right after reset (`10_state.md` R33, `70_reset_and_hazards.md` R161): every register 0, no frame, no byte
of `FB` with a value (log entry 4). -/
def Block.reset : Block where
  crc := 0x0000#16
  plen := 0#8
  len := 0#8
  rp := 0#8
  toolarge := false
  fb := []

/-- The machine right after reset: the host has presented nothing and nothing has been returned (log entry 16). -/
def State.reset : State where
  toBlock := Block.reset
  pending := []
  returned := []

end Sys2Proof.Machine
end

