-- ==== Sys2Proof/Machine/Flags.lean ====
section
/-! DEFINITION. The two derived conditions and the `STATUS` register (`10_state.md` R28, `41_frame_assembler.md`
R112). No operation has arithmetic flags. -/

namespace Sys2Proof.Machine

/-- `VALID`: the frame buffer holds a complete frame (R28). -/
def isValid (b : Block) : Bool := b.len != 0#8

/-- `PLFULL`: 250 or more payload bytes were offered (R28). -/
def isPlFull (b : Block) : Bool := b.plen == Config.plenSaturated

/-- `STATUS`: `0b00000 || PLFULL || TOOLARGE || VALID` (R112). -/
def statusByte (b : Block) : Byte :=
  ((0#5 ++ BitVec.ofBool (isPlFull b)) ++ BitVec.ofBool b.toolarge) ++ BitVec.ofBool (isValid b)

end Sys2Proof.Machine
end

