-- ==== Sys2Proof/Machine/Ops.lean ====
section
/-! DEFINITION. The operations the meanings share: an operation's reply, sequencing, the port, the frame buffer, the one
exception and reset. -/

namespace Sys2Proof.Machine

/-- An operation that leaves the block `b` and returns no byte: every write (`30_encoding.md` R60). -/
def leave (b : Block) : Effect := .next ⟨b, []⟩

/-- `return v` (`00_scope.md` R12): a read operation's byte, with the block it leaves (`30_encoding.md` R60). -/
def answer (v : Byte) (b : Block) : Effect := .next ⟨b, [v]⟩

/-- An effect with bytes returned before it. -/
def Reply.after (bs : List Byte) : Effect → Effect
  | .next r => .next ⟨r.block, bs ++ r.bytes⟩
  | .fault f => .fault f
  | .refused f => .refused f

/-- One operation, then the next on the block it left (`20_memory.md` R48), the bytes returned in order; a stop stays
a stop. -/
def andThen (o : Effect) (f : Block → Effect) : Effect :=
  match o with
  | .next r => Reply.after r.bytes (f r.block)
  | .fault r => .fault r
  | .refused r => .refused r

/-- A reply taken at the port: the block is as it says, the bytes returned join the host's record, and what the host
presents next is untouched. -/
def State.take (s : State) (r : Reply) : State :=
  ⟨r.block, ⟨s.pending, s.returned ++ r.bytes⟩⟩

/-- An operation of the block, at the port. -/
def onPort (f : Block → Effect) (s : State) : Out :=
  match f s.toBlock with
  | .next r => .next (s.take r)
  | .fault r => .fault r
  | .refused r => .refused r

/-- `FB[a]` (R12). -/
def fbRead (m : Memory) (a : Nat) : Except Fault Byte :=
  if a < Config.maxFrame then
    match m.read a with
    | some b => .ok b
    | none => .error (.unwrittenFrameByte a)
  else .error (.noSuchFrameOffset a)

/-- `FB[a] <- b` (R12). -/
def fbWrite (m : Memory) (a : Nat) (b : Byte) : Except Fault Memory :=
  if a < Config.maxFrame then .ok (m.write a b) else .error (.noSuchFrameOffset a)

/-- `k` bytes of `FB` from offset `a` upward, one single-byte read after another (`20_memory.md` R44). -/
def fbLoad (m : Memory) (a : Nat) : Nat → Except Fault (List Byte)
  | 0 => .ok []
  | k + 1 =>
    match fbRead m a with
    | .error f => .error f
    | .ok b =>
      match fbLoad m (a + 1) k with
      | .error f => .error f
      | .ok bs => .ok (b :: bs)

/-- Bytes written to `FB` from offset `a` upward, one single-byte write after another (R44). -/
def fbStore (m : Memory) (a : Nat) : List Byte → Except Fault Memory
  | [] => .ok m
  | b :: bs =>
    match fbWrite m a b with
    | .error f => .error f
    | .ok m' => fbStore m' (a + 1) bs

/-- The offset the next `PLPUSH` writes (`20_memory.md` R41, `10_state.md` R27). -/
def pushOffset (b : Block) : Nat := 4 + b.plen.toNat

/-- The length of the frame a `BUILD` makes: `PLEN + 6` (`41_frame_assembler.md` R106). -/
def buildLength (b : Block) : Nat := b.plen.toNat + Config.overhead

/-- TAKING THE EXCEPTION: `raise FrameTooLarge` has these effects and no other (`60_exceptions.md` R141, R145). -/
def raiseFrameTooLarge (b : Block) : Block := { b with toolarge := true, len := 0#8, rp := 0#8 }

/-- LEAVING THE EXCEPTION: there is no return instruction; the condition is left by emptying the payload (R146),
which also discards the frame (`41_frame_assembler.md` R104). -/
def clearPayload (b : Block) : Block := { b with plen := 0#8, len := 0#8, toolarge := false }

end Sys2Proof.Machine
end

