-- ==== Sys2Proof/Machine/Assembler.lean ====
section
/-! DEFINITION. The operations of the frame assembler (`41_frame_assembler.md` R104 to R112): each on the block, and the
same at the port, which is the meaning the dispatch calls. -/

namespace Sys2Proof.Machine

/-- `PLCLR` (R104): `PLEN`, `LEN`, `TOOLARGE` become 0. -/
def effPlClr (b : Block) : Effect := leave (clearPayload b)

def execPlClr (s : State) : Out := onPort effPlClr s

/-- `PLPUSH v` (R105). The last branch is the rule's `else`, which it glosses as `PLEN = 250`; a greater `PLEN`
never occurs (R22; log entry 8). -/
def effPlPush (v : Byte) (b : Block) : Effect :=
  if b.plen.toNat < Config.maxPayload then
    match fbWrite b.fb (pushOffset b) v with
    | .ok m => leave { b with fb := m, plen := b.plen + 1#8, len := 0#8 }
    | .error f => .fault f
  else if b.plen.toNat = Config.maxPayload then
    leave { b with plen := Config.plenSaturated, len := 0#8 }
  else leave { b with len := 0#8 }

def execPlPush (v : Byte) (s : State) : Out := onPort (effPlPush v) s

/-- `RDPLEN` (R107): `return PLEN`. -/
def effRdPlen (b : Block) : Effect := answer b.plen b

def execRdPlen (s : State) : Out := onPort effRdPlen s

/-- The effects of a `BUILD` that does not raise, in the rule's order (R106): the header, the checksum of the
`n - 2` bytes before it, the checksum low byte first, then `CRC`, `LEN` and `RP`. -/
def buildInPlace (c : Byte) (b : Block) : Except Fault Block :=
  let n := buildLength b
  match fbStore b.fb 0 [Config.sync, Config.addr, BitVec.ofNat 8 n, c] with
  | .error f => .error f
  | .ok m =>
    match fbLoad m 0 (n - 2) with
    | .error f => .error f
    | .ok h =>
      let v := crc16 h
      match fbStore m (n - 2) [crcLow v, crcHigh v] with
      | .error f => .error f
      | .ok m' => .ok { b with fb := m', crc := v, len := BitVec.ofNat 8 n, rp := 0#8 }

/-- `BUILD c` (R106): the test comes first, before any write (`60_exceptions.md` R144); the code is not checked
(`30_encoding.md` R72). -/
def effBuild (c : Byte) (b : Block) : Effect :=
  if Config.maxPayload < b.plen.toNat then leave (raiseFrameTooLarge b)
  else
    match buildInPlace c b with
    | .ok b' => leave b'
    | .error f => .fault f

def execBuild (c : Byte) (s : State) : Out := onPort (effBuild c) s

/-- `RDLEN` (R108): `return LEN`. -/
def effRdLen (b : Block) : Effect := answer b.len b

def execRdLen (s : State) : Out := onPort effRdLen s

/-- `RDPTR` (R109): `return RP`. -/
def effRdPtr (b : Block) : Effect := answer b.rp b

def execRdPtr (s : State) : Out := onPort effRdPtr s

/-- `WRPTR p` (R110): `RP <- p`, any value. -/
def effWrPtr (p : Byte) (b : Block) : Effect := leave { b with rp := p }

def execWrPtr (p : Byte) (s : State) : Out := onPort (effWrPtr p) s

/-- `RDFRB` (R111): the frame byte at `RP`, and `RP` moves on; outside the frame 0x00, and `RP` stays. -/
def effRdFrb (b : Block) : Effect :=
  if b.rp.toNat < b.len.toNat then
    match fbRead b.fb b.rp.toNat with
    | .ok d => answer d { b with rp := b.rp + 1#8 }
    | .error f => .fault f
  else answer 0x00#8 b

def execRdFrb (s : State) : Out := onPort effRdFrb s

/-- `RDSTAT` (R112): `return STATUS`; nothing is cleared. -/
def effRdStat (b : Block) : Effect := answer (statusByte b) b

def execRdStat (s : State) : Out := onPort effRdStat s

end Sys2Proof.Machine
end

