-- ==== Sys2Proof/Machine/CrcEngine.lean ====
section
/-! DEFINITION. The operations of the CRC engine (`40_crc_engine.md` R84 to R87): each on the block, and the same at the
port, which is the meaning the dispatch calls. -/

namespace Sys2Proof.Machine

/-- `CRCINIT` (R84): `CRC <- 0x0000`. -/
def effCrcInit (b : Block) : Effect := leave { b with crc := Config.crcInit }

def execCrcInit (s : State) : Out := onPort effCrcInit s

/-- `CRCUPD v` (R85): `CRC <- crc_byte(CRC, v)`. -/
def effCrcUpd (v : Byte) (b : Block) : Effect := leave { b with crc := crcByte b.crc v }

def execCrcUpd (v : Byte) (s : State) : Out := onPort (effCrcUpd v) s

/-- `RDCRCL` (R86): `return CRC[7:0]`. -/
def effRdCrcL (b : Block) : Effect := answer (crcLow b.crc) b

def execRdCrcL (s : State) : Out := onPort effRdCrcL s

/-- `RDCRCH` (R87): `return CRC[15:8]`. -/
def effRdCrcH (b : Block) : Effect := answer (crcHigh b.crc) b

def execRdCrcH (s : State) : Out := onPort effRdCrcH s

end Sys2Proof.Machine
end

