-- ==== Sys2Proof/Machine/Commands.lean ====
section
/-! DEFINITION. The pseudo-operations: `FRAME` and `CRC16` as lists of operation words (`41_frame_assembler.md` R113,
`40_crc_engine.md` R91, `92_eei_decisions.md` D23), and the ten commands (`42_ccnet_commands.md` R120 to R131), each
run as its whole sequence of operations in one `exec` (DESIGN CHOICE, log entry 6). -/

namespace Sys2Proof.Machine

/-- One `PLPUSH` per payload byte, in order (R120). -/
def pushAll : List Byte → Block → Effect
  | [], b => leave b
  | v :: vs, b => andThen (effPlPush v b) (pushAll vs)

/-- The build part of `FRAME c, p`: `PLCLR`, the pushes, `BUILD c` (R113, R120). -/
def frameBuildPart (c : Byte) (p : List Byte) (b : Block) : Effect :=
  andThen (effPlClr b) fun b1 => andThen (pushAll p b1) (effBuild c)

/-- `n` times `RDFRB`. -/
def readFrameBytes : Nat → Block → Effect
  | 0, b => leave b
  | n + 1, b => andThen (effRdFrb b) (readFrameBytes n)

/-- The readout part of `FRAME`: `RDSTAT -> s`, `RDLEN -> n`, then `n` times `RDFRB`, only if `s[0] = 1` (R113). -/
def frameReadoutPart (b : Block) : Effect :=
  andThen (effRdStat b) fun b1 =>
    andThen (effRdLen b1) fun b2 =>
      if (statusByte b).getLsbD 0 then readFrameBytes b1.len.toNat b2 else leave b2

/-- The pseudo-operation `FRAME c, p` (R113). -/
def runFrame (c : Byte) (p : List Byte) (b : Block) : Effect :=
  andThen (frameBuildPart c p b) frameReadoutPart

/-- The words of the build part of `FRAME c, p` (R113): `PLCLR; PLPUSH p0; ...; BUILD c`. -/
def frameBuildWords (c : Byte) (p : List Byte) : List OpWord :=
  writeWord 0x4#4 0x00#8 :: p.map (writeWord 0x5#4) ++ [writeWord 0x7#4 c]

/-- The words of the readout part for a frame of `n` bytes (R113): `RDSTAT; RDLEN;` and `n` times `RDFRB`. -/
def frameReadoutWords (n : Nat) : List OpWord :=
  readWord 0xB#4 :: readWord 0x8#4 :: List.replicate n (readWord 0xA#4)

/-- The words of `CRC16 bs` (R91): `CRCINIT; CRCUPD b0; ...; RDCRCL; RDCRCH`. -/
def crc16Words (bs : List Byte) : List OpWord :=
  writeWord 0x0#4 0x00#8 :: bs.map (writeWord 0x1#4) ++ [readWord 0x2#4, readWord 0x3#4]

/-- The words a command pseudo-operation stands for: its build part and its readout part (R120). -/
def commandWords (c : Byte) (p : List Byte) : List OpWord :=
  frameBuildWords c p ++ frameReadoutWords (p.length + Config.overhead)

/-- `C.RESET` (R122): code 0x30, payload empty. -/
def effCReset (b : Block) : Effect := runFrame 0x30#8 [] b

def execCReset (s : State) : Out := onPort effCReset s

/-- `C.STATUS` (R123): code 0x31, payload empty. -/
def effCStatus (b : Block) : Effect := runFrame 0x31#8 [] b

def execCStatus (s : State) : Out := onPort effCStatus s

/-- `C.SECURITY m` (R124): code 0x32, payload `[0x00, 0x00, m]`. -/
def effCSecurity (m : Byte) (b : Block) : Effect := runFrame 0x32#8 (securityPayload m) b

def execCSecurity (m : Byte) (s : State) : Out := onPort (effCSecurity m) s

/-- `C.POLL` (R125): code 0x33, payload empty. -/
def effCPoll (b : Block) : Effect := runFrame 0x33#8 [] b

def execCPoll (s : State) : Out := onPort effCPoll s

/-- `C.ENABLE m` (R126): code 0x34, payload `[0x00, 0x00, m, 0x00, 0x00, 0x00]`; the caller's mask (R132). -/
def effCEnable (m : Byte) (b : Block) : Effect := runFrame 0x34#8 (enablePayload m) b

def execCEnable (m : Byte) (s : State) : Out := onPort (effCEnable m) s

/-- `C.STACK` (R127): code 0x35, payload empty. -/
def effCStack (b : Block) : Effect := runFrame 0x35#8 [] b

def execCStack (s : State) : Out := onPort effCStack s

/-- `C.RETURN` (R128): code 0x36, payload empty. -/
def effCReturn (b : Block) : Effect := runFrame 0x36#8 [] b

def execCReturn (s : State) : Out := onPort effCReturn s

/-- `C.IDENT` (R129): code 0x37, payload empty. -/
def effCIdent (b : Block) : Effect := runFrame 0x37#8 [] b

def execCIdent (s : State) : Out := onPort effCIdent s

/-- `C.ACK` (R130): code 0x00, payload empty. -/
def effCAck (b : Block) : Effect := runFrame 0x00#8 [] b

def execCAck (s : State) : Out := onPort effCAck s

/-- `C.NSC` (R131): code 0xFF, payload empty. -/
def effCNsc (b : Block) : Effect := runFrame 0xFF#8 [] b

def execCNsc (s : State) : Out := onPort effCNsc s

end Sys2Proof.Machine
end

