-- ==== Sys2Proof/Machine/Dispatch.lean ====
section
/-! DEFINITION. One arm per instruction, each one direct call of its meaning. -/

namespace Sys2Proof.Machine

def exec (i : Instr) (s : State) : Host.Outcome State Fault Refusal :=
  match i with
  | .crcInit => Sys2Proof.Machine.execCrcInit s
  | .crcUpd b => Sys2Proof.Machine.execCrcUpd b s
  | .rdCrcL => Sys2Proof.Machine.execRdCrcL s
  | .rdCrcH => Sys2Proof.Machine.execRdCrcH s
  | .plClr => Sys2Proof.Machine.execPlClr s
  | .plPush b => Sys2Proof.Machine.execPlPush b s
  | .rdPlen => Sys2Proof.Machine.execRdPlen s
  | .build c => Sys2Proof.Machine.execBuild c s
  | .rdLen => Sys2Proof.Machine.execRdLen s
  | .rdPtr => Sys2Proof.Machine.execRdPtr s
  | .wrPtr p => Sys2Proof.Machine.execWrPtr p s
  | .rdFrb => Sys2Proof.Machine.execRdFrb s
  | .rdStat => Sys2Proof.Machine.execRdStat s
  | .cReset => Sys2Proof.Machine.execCReset s
  | .cStatus => Sys2Proof.Machine.execCStatus s
  | .cSecurity m => Sys2Proof.Machine.execCSecurity m s
  | .cPoll => Sys2Proof.Machine.execCPoll s
  | .cEnable m => Sys2Proof.Machine.execCEnable m s
  | .cStack => Sys2Proof.Machine.execCStack s
  | .cReturn => Sys2Proof.Machine.execCReturn s
  | .cIdent => Sys2Proof.Machine.execCIdent s
  | .cAck => Sys2Proof.Machine.execCAck s
  | .cNsc => Sys2Proof.Machine.execCNsc s

end Sys2Proof.Machine
end

