-- ==== Sys2Proof/Machine/HostPort.lean ====
section
/-! DEFINITION. What the block does at its port besides the thirteen operations: reserved and wrong-direction
accesses (`30_encoding.md` R65), the reset input (`70_reset_and_hazards.md` R160), and nothing at all while the host
presents nothing (`30_encoding.md` R60, `60_exceptions.md` R149). -/

namespace Sys2Proof.Machine

/-- A reserved read returns 0x00 and changes no state (R65). -/
def effReservedRead (_a : RegAddr) (b : Block) : Effect := answer 0x00#8 b

def execReservedRead (a : RegAddr) (s : State) : Out := onPort (effReservedRead a) s

/-- A reserved write changes no state and returns nothing (R65). -/
def effReservedWrite (_a : RegAddr) (_d : Byte) (b : Block) : Effect := leave b

def execReservedWrite (a : RegAddr) (d : Byte) (s : State) : Out := onPort (effReservedWrite a d) s

/-- The reset input (R160, R161): state to reset state, whatever the block was; what the host has yet to present and
what it has read are the host's, and stay (log entry 16). -/
def effReset (_b : Block) : Effect := leave Block.reset

def execReset (s : State) : Out := onPort effReset s

/-- No event: the block holds its state (R149; log entry 14). -/
def execIdle (s : State) : Out := .next s

end Sys2Proof.Machine
end

