-- ==== Sys2Proof/Machine/Step.lean ====
section
/-! DEFINITION. The host interface's step, of a state alone: the block takes the next event the host presents
(`20_memory.md` R48). It is `blockStep`, fed from the port (lemma `step_cons`). -/

namespace Sys2Proof.Machine

/-- Running what a code stands for (R66). -/
def runDecoded (d : Decoded) (s : State) : Host.Outcome State Fault Refusal :=
  match d with
  | .instr i => exec i s
  | .reservedRead a => execReservedRead a s
  | .reservedWrite a b => execReservedWrite a b s

/-- The step: take the first pending event off the stream, decode it, run it. -/
def step (s : State) : Host.Outcome State Fault Refusal :=
  match s.pending with
  | [] => execIdle s
  | .reset :: rest => execReset { s with pending := rest }
  | .present c :: rest =>
    match decode c with
    | .ok d => runDecoded d { s with pending := rest }
    | .error r => .refused (.notAnEncoding r)

/-- The state with an instruction of the opcode table presented as the very next event (log entry 3). -/
def State.withFetchWord (s : State) (nbits w : Nat) : State :=
  { s with pending := .present (codeOfTable nbits w) :: s.pending }

end Sys2Proof.Machine
end

