-- ==== Sys2Proof/Machine/BlockStep.lean ====
section
/-! DEFINITION. The block's step relation as the spec has it (`10_state.md` R34, `70_reset_and_hazards.md` R160): the
state is the six items alone, and the operation the host presents and the reset input are its parameter. The host
interface's `step` is this one, fed from the port. -/

namespace Sys2Proof.Machine

/-- The effect of an instruction on the block, by the same operations the dispatch's meanings lift to the port. -/
def effectOf (i : Instr) (b : Block) : Effect :=
  match i with
  | .crcInit => effCrcInit b
  | .crcUpd v => effCrcUpd v b
  | .rdCrcL => effRdCrcL b
  | .rdCrcH => effRdCrcH b
  | .plClr => effPlClr b
  | .plPush v => effPlPush v b
  | .rdPlen => effRdPlen b
  | .build c => effBuild c b
  | .rdLen => effRdLen b
  | .rdPtr => effRdPtr b
  | .wrPtr p => effWrPtr p b
  | .rdFrb => effRdFrb b
  | .rdStat => effRdStat b
  | .cReset => effCReset b
  | .cStatus => effCStatus b
  | .cSecurity m => effCSecurity m b
  | .cPoll => effCPoll b
  | .cEnable m => effCEnable m b
  | .cStack => effCStack b
  | .cReturn => effCReturn b
  | .cIdent => effCIdent b
  | .cAck => effCAck b
  | .cNsc => effCNsc b

/-- The effect of what a code stands for (`30_encoding.md` R66). -/
def effectOfDecoded (d : Decoded) (b : Block) : Effect :=
  match d with
  | .instr i => effectOf i b
  | .reservedRead a => effReservedRead a b
  | .reservedWrite a v => effReservedWrite a v b

/-- One step of the block under one event of its environment (R34, R160; `20_memory.md` R48). -/
def blockStep (e : HostEvent) (b : Block) : Effect :=
  match e with
  | .reset => effReset b
  | .present c =>
    match decode c with
    | .ok d => effectOfDecoded d b
    | .error r => .refused (.notAnEncoding r)

/-- A run of the block: a finite sequence of operations and resets chosen by the host
(`70_reset_and_hazards.md` R175). -/
def blockRun : List HostEvent → Block → Effect
  | [], b => leave b
  | e :: es, b => andThen (blockStep e b) (blockRun es)

end Sys2Proof.Machine
end

