-- ==== Sys2Proof/Machine/Names.lean ====
section
/-! DEFINITION. Names: the mnemonics and the assembler syntax (`30_encoding.md` R62, R73), the command names of the
code map (R71), the source's operation names (`42_ccnet_commands.md` R121), the register names (R63). The names are
labels; no meaning depends on them. -/

namespace Sys2Proof.Machine

/-- The mnemonic of an instruction (R62, R73). -/
def mnemonic : Instr → String
  | .crcInit => "CRCINIT"
  | .crcUpd _ => "CRCUPD"
  | .rdCrcL => "RDCRCL"
  | .rdCrcH => "RDCRCH"
  | .plClr => "PLCLR"
  | .plPush _ => "PLPUSH"
  | .rdPlen => "RDPLEN"
  | .build _ => "BUILD"
  | .rdLen => "RDLEN"
  | .rdPtr => "RDPTR"
  | .wrPtr _ => "WRPTR"
  | .rdFrb => "RDFRB"
  | .rdStat => "RDSTAT"
  | .cReset => "C.RESET"
  | .cStatus => "C.STATUS"
  | .cSecurity _ => "C.SECURITY"
  | .cPoll => "C.POLL"
  | .cEnable _ => "C.ENABLE"
  | .cStack => "C.STACK"
  | .cReturn => "C.RETURN"
  | .cIdent => "C.IDENT"
  | .cAck => "C.ACK"
  | .cNsc => "C.NSC"

/-- The operand written after the mnemonic, where there is one (R73). -/
def asmOperand : Instr → Option Byte
  | .crcInit => none
  | .crcUpd b => some b
  | .rdCrcL => none
  | .rdCrcH => none
  | .plClr => none
  | .plPush b => some b
  | .rdPlen => none
  | .build c => some c
  | .rdLen => none
  | .rdPtr => none
  | .wrPtr p => some p
  | .rdFrb => none
  | .rdStat => none
  | .cReset => none
  | .cStatus => none
  | .cSecurity m => some m
  | .cPoll => none
  | .cEnable m => some m
  | .cStack => none
  | .cReturn => none
  | .cIdent => none
  | .cAck => none
  | .cNsc => none

/-- A hexadecimal digit, upper case. -/
def hexDigit (n : Nat) : Char := "0123456789ABCDEF".toList.getD n '0'

/-- A byte in hexadecimal with `0x` prefix (R73). -/
def hexByte (b : Byte) : String :=
  String.ofList ['0', 'x', hexDigit (b.toNat / 16), hexDigit (b.toNat % 16)]

/-- One line of assembler (R73): the mnemonic, then the operand where there is one. -/
def assembly (i : Instr) : String :=
  match asmOperand i with
  | none => mnemonic i
  | some b => mnemonic i ++ " " ++ hexByte b

/-- A line for a read operation with the byte it returns (R73): `-> 0xNN`. -/
def assemblyRead (i : Instr) (b : Byte) : String := assembly i ++ " -> " ++ hexByte b

/-- The name of a command in the code map (R71). -/
def commandName : Instr → Option String
  | .cReset => some "Reset"
  | .cStatus => some "Status"
  | .cSecurity _ => some "SetSecurity"
  | .cPoll => some "Poll"
  | .cEnable _ => some "EnableBillTypes"
  | .cStack => some "Stack"
  | .cReturn => some "ReturnBill"
  | .cIdent => some "Identification"
  | .cAck => some "ACK"
  | .cNsc => some "NACK/NSC"
  | .crcInit => none
  | .crcUpd _ => none
  | .rdCrcL => none
  | .rdCrcH => none
  | .plClr => none
  | .plPush _ => none
  | .rdPlen => none
  | .build _ => none
  | .rdLen => none
  | .rdPtr => none
  | .wrPtr _ => none
  | .rdFrb => none
  | .rdStat => none

/-- The source's name of a command's operation (R121; `90_conflicts.md` C5). -/
def sourceName : Instr → Option String
  | .cReset => some "sendReset"
  | .cStatus => some "sendStatus"
  | .cSecurity _ => some "sendSecurity"
  | .cPoll => some "sendPoll"
  | .cEnable _ => some "sendEnableBillTypes"
  | .cStack => some "sendStack"
  | .cReturn => some "sendReturnBill"
  | .cIdent => some "sendIdentification"
  | .cAck => some "sendAck"
  | .cNsc => some "sendNoStackControlledAck"
  | .crcInit => none
  | .crcUpd _ => none
  | .rdCrcL => none
  | .rdCrcH => none
  | .plClr => none
  | .plPush _ => none
  | .rdPlen => none
  | .build _ => none
  | .rdLen => none
  | .rdPtr => none
  | .wrPtr _ => none
  | .rdFrb => none
  | .rdStat => none

/-- The name of a register (R63). -/
def regName : Reg → String
  | .crcInit => "CRC_INIT"
  | .crcData => "CRC_DATA"
  | .crcLo => "CRC_LO"
  | .crcHi => "CRC_HI"
  | .plClr => "PL_CLR"
  | .plData => "PL_DATA"
  | .plLen => "PL_LEN"
  | .frBuild => "FR_BUILD"
  | .frLen => "FR_LEN"
  | .frPtr => "FR_PTR"
  | .frData => "FR_DATA"
  | .status => "STATUS"

end Sys2Proof.Machine
end

