-- ==== Sys2Proof/Safety.lean ====
section
/-! DEFINITION. What claims about a run are stated in: the invariants of `10_state.md` R32, what a run can observe
(`70_reset_and_hazards.md` R175), and the effect a command pseudo-operation has (`42_ccnet_commands.md` R120). -/

namespace Sys2Proof.Machine

/-- A bus operation word as an event of the host. -/
abbrev wordEvent (w : OpWord) : HostEvent := .present (.word w)

/-- The state with events presented before those already pending. -/
abbrev State.given (s : State) (evs : List HostEvent) : State := { s with pending := evs ++ s.pending }

/-- The run of a list of operation words from a state, one step a word. -/
abbrev runWords (ws : List OpWord) (s : State) : Out :=
  Host.Core.run Sys2Proof.core ws.length (s.given (ws.map wordEvent))

/-- R32 item 4: the header, and the two checksum bytes over all bytes before them. -/
def FrameStands (b : Block) : Prop :=
  b.fb.read 0 = some 0x02#8 ∧ b.fb.read 1 = some 0x03#8 ∧ b.fb.read 2 = some b.len ∧
  ∃ h, fbLoad b.fb 0 (b.len.toNat - 2) = .ok h ∧
    b.fb.read (b.len.toNat - 2) = some (crcLow (crc16 h)) ∧
    b.fb.read (b.len.toNat - 1) = some (crcHigh (crc16 h))

/-- The invariants of `10_state.md` R32, items 1 to 6. -/
structure RuleInvariants (b : Block) : Prop where
  /-- Item 1. -/
  plenBound : b.plen.toNat ≤ 250
  /-- Item 2; `LEN <= 255` by its width. -/
  lenRange : b.len = 0#8 ∨ 6 ≤ b.len.toNat
  /-- Item 3. -/
  lenOfPlen : b.len ≠ 0#8 → b.plen.toNat ≤ 249 ∧ b.len.toNat = b.plen.toNat + 6
  /-- Item 4. -/
  frameStands : b.len ≠ 0#8 → FrameStands b
  /-- Item 5. -/
  tooLargeState : b.toolarge = true → b.plen = 250#8 ∧ b.len = 0#8
  /-- Item 6: every byte an `RDFRB` can return has been written. -/
  frameWritten : ∀ a < b.len.toNat, (b.fb.read a).isSome

/-- The invariants every step keeps: those of R32, the canonical form of `FB` (the model's, log entry 4), and that
the payload bytes gathered, at most 249 of them, are at `FB[4]` upward (R22). -/
structure Invariants (b : Block) : Prop extends RuleInvariants b where
  fbCanonical : b.fb.wf
  payloadWritten : ∀ k < min b.plen.toNat 249, (b.fb.read (4 + k)).isSome

/-- The offsets of `FB` that can still show at the port (R175): the frame's, and those of the payload gathered (at
most 249 bytes, R22), which become part of the next frame. -/
def observable (b : Block) (a : Nat) : Prop :=
  a < b.len.toNat ∨ (4 ≤ a ∧ a < 4 + min b.plen.toNat 249)

/-- Two blocks that differ at most in bytes of `FB` that cannot show (R175; `93_implementation_defined.md` U9). -/
structure SameObservable (b b' : Block) : Prop where
  crc : b.crc = b'.crc
  plen : b.plen = b'.plen
  len : b.len = b'.len
  rp : b.rp = b'.rp
  toolarge : b.toolarge = b'.toolarge
  fb : ∀ a, observable b a → b.fb.read a = b'.fb.read a

/-- The operation words that feed the host's own checksum: `CRCINIT` and `CRCUPD` (R113). -/
def isCrcWord (w : OpWord) : Prop :=
  decodeWord w = .instr .crcInit ∨ ∃ b, decodeWord w = .instr (.crcUpd b)

/-- `us` is `ws` with `CRCINIT` and `CRCUPD` words put in anywhere (R113). -/
inductive WithCrcWords : List OpWord → List OpWord → Prop where
  | done : WithCrcWords [] []
  | keep (w : OpWord) {ws us : List OpWord} : WithCrcWords ws us → WithCrcWords (w :: ws) (w :: us)
  | put (w : OpWord) {ws us : List OpWord} : isCrcWord w → WithCrcWords ws us → WithCrcWords ws (w :: us)

/-- The bytes that the `CRCUPD` words of a list feed, in order (R91). -/
def crcUpdBytes : List OpWord → List Byte
  | [] => []
  | w :: ws =>
    match decodeWord w with
    | .instr (.crcUpd b) => b :: crcUpdBytes ws
    | .instr _ => crcUpdBytes ws
    | .reservedRead _ => crcUpdBytes ws
    | .reservedWrite _ _ => crcUpdBytes ws

/-- What a command pseudo-operation does from a state `s` (R120): its build part, run word by word, leaves the
frame in `FB` with `PLEN`, `LEN`, `RP`, `TOOLARGE` and `CRC` as said and nothing else changed; its readout part
returns `STATUS` 0x01, `LEN` and the frame's bytes in order and leaves `RP = LEN`, the rest unchanged. -/
def CommandEffect (i : Instr) (buildWords : List OpWord) (plen : Nat) (frame : List Byte) (v : Crc)
    (s : State) : Prop :=
  ∃ b : State,
    runWords buildWords s = .next b ∧
    b.plen.toNat = plen ∧ b.len.toNat = frame.length ∧ frame.length = plen + 6 ∧
    b.rp = 0#8 ∧ b.toolarge = false ∧ b.crc = v ∧ statusByte b.toBlock = 0x01#8 ∧
    fbLoad b.fb 0 frame.length = .ok frame ∧
    (∀ a, frame.length ≤ a → b.fb.read a = s.fb.read a) ∧
    b.pending = s.pending ∧ b.returned = s.returned ∧
    exec i s = .next { b with rp := b.len, returned := s.returned ++ [0x01#8, b.len] ++ frame }

end Sys2Proof.Machine
end

