-- ==== Sys2Proof/Certificates/Slice0/Obligations.lean ====
section
/-! DEFINITION. The statements for the provers. Each docstring names the rule of spec/ it formalises. -/

open Sys2Proof Sys2Proof.Machine

/-! ## Encoding -/

/-- Words written out from `30_encoding.md` R62 and R65, and the frames of R122 and R126 (mask 0x7C), decode to
what they stand for. -/
def Obligations.KnownCodesDecode : Prop :=
  decodeWord 0x105A#13 = .instr .crcInit ∧
  decodeWord 0x1102#13 = .instr (.crcUpd 0x02#8) ∧
  decodeWord 0x0277#13 = .instr .rdCrcL ∧
  decodeWord 0x157C#13 = .instr (.plPush 0x7C#8) ∧
  decodeWord 0x1734#13 = .instr (.build 0x34#8) ∧
  decodeWord 0x1904#13 = .instr (.wrPtr 0x04#8) ∧
  decodeWord 0x0A00#13 = .instr .rdFrb ∧
  decodeWord 0x1AFF#13 = .reservedWrite 0xA#4 0xFF#8 ∧
  decodeWord 0x0500#13 = .reservedRead 0x5#4 ∧
  decode (.frame [0x02#8, 0x03#8, 0x06#8, 0x30#8, 0x41#8, 0xB3#8]) = .ok (.instr .cReset) ∧
  decode (.frame [0x02#8, 0x03#8, 0x0C#8, 0x34#8, 0x00#8, 0x00#8, 0x7C#8, 0x00#8, 0x00#8, 0x00#8, 0x66#8, 0xC1#8])
    = .ok (.instr (.cEnable 0x7C#8))

/-- R62 and R66: the five bits `W, A` alone select the operation, with the thirteen matches of the table; the data
byte is the operand of the four operations that have one; the other nineteen combinations are reserved. -/
def Obligations.OperationSelectedByDirectionAndAddress : Prop :=
  ∀ d : Byte,
    decodeWord (0x10#5 ++ d) = .instr .crcInit ∧
    decodeWord (0x11#5 ++ d) = .instr (.crcUpd d) ∧
    decodeWord (0x02#5 ++ d) = .instr .rdCrcL ∧
    decodeWord (0x03#5 ++ d) = .instr .rdCrcH ∧
    decodeWord (0x14#5 ++ d) = .instr .plClr ∧
    decodeWord (0x15#5 ++ d) = .instr (.plPush d) ∧
    decodeWord (0x06#5 ++ d) = .instr .rdPlen ∧
    decodeWord (0x17#5 ++ d) = .instr (.build d) ∧
    decodeWord (0x08#5 ++ d) = .instr .rdLen ∧
    decodeWord (0x09#5 ++ d) = .instr .rdPtr ∧
    decodeWord (0x19#5 ++ d) = .instr (.wrPtr d) ∧
    decodeWord (0x0A#5 ++ d) = .instr .rdFrb ∧
    decodeWord (0x0B#5 ++ d) = .instr .rdStat ∧
    (∀ wa ∈ [0x12#5, 0x13#5, 0x16#5, 0x18#5, 0x1A#5, 0x1B#5, 0x1C#5, 0x1D#5, 0x1E#5, 0x1F#5],
      decodeWord (wa ++ d) = .reservedWrite (wa.extractLsb' 0 4) d) ∧
    (∀ wa ∈ [0x00#5, 0x01#5, 0x04#5, 0x05#5, 0x07#5, 0x0C#5, 0x0D#5, 0x0E#5, 0x0F#5],
      decodeWord (wa ++ d) = .reservedRead (wa.extractLsb' 0 4))

/-- R63 and R65: an access is reserved exactly when the address has no register or the register map's access column
does not allow its direction. -/
def Obligations.ReservedIsWhatTheRegisterMapForbids : Prop :=
  (∀ r : Reg, Reg.ofAddr r.addr = some r) ∧
  ∀ w : OpWord,
    (decodeWord w = .reservedWrite (opAddr w) (opData w) ↔
      opIsWrite w = true ∧ ∀ r, Reg.ofAddr (opAddr w) = some r → r.access = .ro) ∧
    (decodeWord w = .reservedRead (opAddr w) ↔
      opIsWrite w = false ∧ ∀ r, Reg.ofAddr (opAddr w) = some r → r.access = .wo)

/-- Decode of encode is the instruction, for every instruction and every operand. -/
def Obligations.DecodeOfEncodeIsTheInstruction : Prop :=
  ∀ i : Instr, decode (encode i) = .ok (.instr i)

/-- A word that decodes to an instruction is the instruction's canonical word where the operation has an operand, and
else differs from it at most in the data byte, which the canonical word has zero (R62, R64). -/
def Obligations.EncodeOfDecodedWordIsItsCanonicalForm : Prop :=
  ∀ (w : OpWord) (i : Instr), decodeWord w = .instr i →
    ∃ w' : OpWord, encode i = .word w' ∧
      (asmOperand i = none → w' = w &&& 0x1F00#13) ∧ (asmOperand i ≠ none → w' = w)

/-- A frame decodes to an instruction exactly when it is that instruction's encoding, and only well-formed frames
decode. -/
def Obligations.FrameDecodesExactlyToItsCommand : Prop :=
  ∀ (f : List Byte) (i : Instr),
    (decodeFrame f = .ok i ↔ encode i = .frame f) ∧ (decodeFrame f = .ok i → (Code.frame f).wf = true)

/-- R71: the ten codes, payloads and frame lengths; and each command's encoding is the frame `build_frame` makes. -/
def Obligations.CommandCodeMapAndFrames : Prop :=
  (∀ m : Byte,
    commandOf .cReset = some (0x30#8, []) ∧ commandOf .cStatus = some (0x31#8, []) ∧
    commandOf (.cSecurity m) = some (0x32#8, [0, 0, m]) ∧ commandOf .cPoll = some (0x33#8, []) ∧
    commandOf (.cEnable m) = some (0x34#8, [0, 0, m, 0, 0, 0]) ∧ commandOf .cStack = some (0x35#8, []) ∧
    commandOf .cReturn = some (0x36#8, []) ∧ commandOf .cIdent = some (0x37#8, []) ∧
    commandOf .cAck = some (0x00#8, []) ∧ commandOf .cNsc = some (0xFF#8, [])) ∧
  ∀ (i : Instr) (c : Byte) (p : List Byte), commandOf i = some (c, p) →
    ∃ f, buildFrame c p = some f ∧ encode i = .frame f ∧
      (f.length = 6 ∨ (c = 0x32#8 ∧ f.length = 9) ∨ (c = 0x34#8 ∧ f.length = 12))

/-! ## The two functions -/

/-- R80: `crc_bit`, by its formula and bit by bit. -/
def Obligations.CrcBitIsShiftAndConditionalXor : Prop :=
  ∀ v : Crc,
    crcBit v = (if v.getLsbD 0 = true then (v >>> 1) ^^^ 0x8408#16 else v >>> 1) ∧
    (crcBit v).getLsbD 15 = v.getLsbD 0 ∧
    (crcBit v).getLsbD 10 = (v.getLsbD 11 ^^ v.getLsbD 0) ∧
    (crcBit v).getLsbD 3 = (v.getLsbD 4 ^^ v.getLsbD 0) ∧
    ∀ i < 15, i ≠ 10 → i ≠ 3 → (crcBit v).getLsbD i = v.getLsbD (i + 1)

/-- R81: the byte, zero-extended, is XORed once; then exactly eight bit steps. -/
def Obligations.CrcByteIsOneXorAndEightBitSteps : Prop :=
  ∀ (v : Crc) (b : Byte),
    crcByte v b =
      crcBit (crcBit (crcBit (crcBit (crcBit (crcBit (crcBit (crcBit (v ^^^ (0x00#8 ++ b)))))))))

/-- R82: `crc16` is the running value from 0 over the bytes in order, nothing added at the end. -/
def Obligations.CrcOfSequenceIsRunningValueFromZero : Prop :=
  crc16 [] = 0x0000#16 ∧
  (∀ (bs : List Byte) (b : Byte), crc16 (bs ++ [b]) = crcByte (crc16 bs) b) ∧
  (∀ bs : List Byte, crc16 bs = bs.foldl crcByte 0x0000#16) ∧
  crc16 [0x02#8, 0x03#8, 0x06#8, 0x30#8] = 0xB341#16

/-- R88 items 1 and 2: `crc_bit` has the stated inverse; `crc_byte` is a bijection in the running value and
injective in the byte. -/
def Obligations.CrcStepsLoseNothing : Prop :=
  (∀ r : Crc,
    crcBit (((r ^^^ (if r.getLsbD 15 = true then 0x8408#16 else 0x0000#16)) <<< 1)
      ||| (if r.getLsbD 15 = true then 0x0001#16 else 0x0000#16)) = r) ∧
  (∀ b : Byte, Function.Bijective fun v : Crc => crcByte v b) ∧
  (∀ v : Crc, Function.Injective fun b : Byte => crcByte v b)

/-- R88 item 3: the table form of the byte step. -/
def Obligations.CrcByteByTable : Prop :=
  ∀ (v : Crc) (b : Byte),
    crcByte v b = (v >>> 8) ^^^ crcByte 0x0000#16 ((v ^^^ b.setWidth 16).extractLsb' 0 8)

/-- R88 item 4: the checksum is linear over XOR of sequences of equal length, and the running value from any start
value is the XOR of the checksum and of what the start value becomes over zero bytes. -/
def Obligations.ChecksumIsLinearOverXor : Prop :=
  (∀ xs ys : List Byte, xs.length = ys.length →
    crc16 (List.zipWith (fun x y => x ^^^ y) xs ys) = crc16 xs ^^^ crc16 ys) ∧
  ∀ (v : Crc) (xs : List Byte),
    crcRun v xs = crc16 xs ^^^ crcRun v (List.replicate xs.length 0x00#8)

/-- R88 items 5 and 6: leading zero bytes do not change the checksum; a sequence followed by its own checksum, low
byte first, has checksum 0. -/
def Obligations.ChecksumLeadingZerosAndResidue : Prop :=
  (∀ (k : Nat) (bs : List Byte), crc16 (List.replicate k 0x00#8 ++ bs) = crc16 bs) ∧
  ∀ bs : List Byte,
    crc16 (bs ++ [(crc16 bs).extractLsb' 0 8, (crc16 bs).extractLsb' 8 8]) = 0x0000#16

/-- R100, R101, R102: `build_frame` gives a frame exactly for payloads of at most 249 bytes, `n = len + 6` bytes:
header, command, the payload verbatim, the checksum of all bytes before it, low byte first. -/
def Obligations.BuildFrameLayout : Prop :=
  ∀ (c : Byte) (p : List Byte),
    (249 < p.length → buildFrame c p = none) ∧
    (p.length ≤ 249 → ∃ f v, buildFrame c p = some f ∧ f.length = p.length + 6 ∧
      f[0]? = some 0x02#8 ∧ f[1]? = some 0x03#8 ∧ (f[2]?.map BitVec.toNat) = some f.length ∧
      f[3]? = some c ∧ (f.drop 4).take p.length = p ∧
      v = crc16 (f.take (f.length - 2)) ∧
      f[f.length - 2]? = some (v.extractLsb' 0 8) ∧ f[f.length - 1]? = some (v.extractLsb' 8 8))

/-- R114: a whole frame has checksum 0; different arguments give different frames; frames that differ only in the
command differ in byte 3 and in their checksum and agree in the bytes 0, 1, 2 and the payload. -/
def Obligations.BuildFrameConsequences : Prop :=
  ∀ (c c' : Byte) (p p' f f' : List Byte), buildFrame c p = some f → buildFrame c' p' = some f' →
    crc16 f = 0x0000#16 ∧
    (f = f' → c = c' ∧ p = p') ∧
    (p = p' → c ≠ c' →
      f.take 3 = f'.take 3 ∧ (f.drop 4).take p.length = (f'.drop 4).take p.length ∧
      f[3]? ≠ f'[3]? ∧ f.drop (p.length + 4) ≠ f'.drop (p.length + 4))

/-! ## The CRC engine's operations -/

/-- R84: `CRCINIT` sets `CRC` to 0 and changes nothing else, whatever the write data. -/
def Obligations.CrcInitZeroesCrc : Prop :=
  (∀ d : Byte, decodeWord (0x10#5 ++ d) = .instr .crcInit) ∧ encode .crcInit = .word 0x1000#13 ∧
  ∀ s : State, exec .crcInit s = .next { s with crc := 0x0000#16 }

/-- R85: `CRCUPD b` takes the byte step and changes nothing else, for every byte and from every value. -/
def Obligations.CrcUpdTakesTheByteStep : Prop :=
  (∀ b : Byte, decodeWord (0x11#5 ++ b) = .instr (.crcUpd b)) ∧
  ∀ (b : Byte) (s : State), exec (.crcUpd b) s = .next { s with crc := crcByte s.crc b }

/-- R86 and R87: `RDCRCL` and `RDCRCH` return the low and the high byte of `CRC` and change no state. -/
def Obligations.CrcReadsReturnItsTwoBytes : Prop :=
  (∀ d : Byte, decodeWord (0x02#5 ++ d) = .instr .rdCrcL ∧ decodeWord (0x03#5 ++ d) = .instr .rdCrcH) ∧
  encode .rdCrcL = .word 0x0200#13 ∧ encode .rdCrcH = .word 0x0300#13 ∧
  ∀ s : State,
    exec .rdCrcL s = .next { s with returned := s.returned ++ [s.crc.extractLsb' 0 8] } ∧
    exec .rdCrcH s = .next { s with returned := s.returned ++ [s.crc.extractLsb' 8 8] }

/-- R91: a checksum transaction, from any state, returns the two bytes of `crc16`. With operations that do not write
`CRC` (every read, reserved accesses, `PLCLR`, `PLPUSH`, `WRPTR`) put anywhere in it, before, between and after the
`CRCUPD`s and between the two reads, the reads still return the two bytes of `crc16` of the bytes fed; and where `CRC`
is 0, as after reset, the leading `CRCINIT` may be left out. -/
def Obligations.ChecksumTransaction : Prop :=
  (∀ (bs : List Byte) (s : State), ∃ lo hi : Byte,
    runWords (crc16Words bs) s = .next { s with crc := crc16 bs, returned := s.returned ++ [lo, hi] } ∧
    (hi ++ lo : BitVec 16) = crc16 bs) ∧
  ∀ (start ws us : List OpWord) (s t : State),
    (start = [0x1000#13] ∨ (start = [] ∧ s.crc = 0x0000#16)) →
    (∀ w ∈ ws, decodeWord w ≠ .instr .crcInit ∧ ∀ c, decodeWord w ≠ .instr (.build c)) →
    (∀ w ∈ us, ¬ isCrcWord w ∧ ∀ c, decodeWord w ≠ .instr (.build c)) →
    runWords (start ++ ws) s = .next t →
    ∃ (lo : Byte) (u : State), runWords [0x0200#13] t = .next u ∧ u.returned = t.returned ++ [lo] ∧
      ∀ v : State, runWords us u = .next v →
        ∃ (hi : Byte) (x : State), runWords [0x0300#13] v = .next x ∧ x.returned = v.returned ++ [hi] ∧
          (hi ++ lo : BitVec 16) = crc16 (crcUpdBytes ws)

/-! ## The frame assembler's operations -/

/-- R104: `PLCLR` empties the payload, discards the frame, clears `TOOLARGE`, and changes nothing else; it is the
only bus operation that clears `TOOLARGE`. -/
def Obligations.PlClrStartsANewPayload : Prop :=
  (∀ d : Byte, decodeWord (0x14#5 ++ d) = .instr .plClr) ∧ encode .plClr = .word 0x1400#13 ∧
  (∀ s : State, exec .plClr s = .next { s with plen := 0#8, len := 0#8, toolarge := false }) ∧
  ∀ (i : Instr) (s t : State), commandOf i = none → exec i s = .next t → s.toolarge = true →
    t.toolarge = false → i = .plClr

/-- R105: `PLPUSH b` stores the byte at the next payload offset and counts it, below 249; remembers the 250th;
drops every later one; discards the frame in all three cases; and changes nothing else, no other byte of `FB`
among it. -/
def Obligations.PlPushAppendsOrDrops : Prop :=
  (∀ b : Byte, decodeWord (0x15#5 ++ b) = .instr (.plPush b)) ∧
  ∀ (b : Byte) (s : State), ∃ t : State, exec (.plPush b) s = .next t ∧
    (s.plen.toNat < 249 → t.plen.toNat = s.plen.toNat + 1 ∧ pushOffset s.toBlock = 4 + s.plen.toNat ∧
      t.fb.read (pushOffset s.toBlock) = some b ∧ ∀ a, a ≠ pushOffset s.toBlock → t.fb.read a = s.fb.read a) ∧
    (s.plen.toNat = 249 → t.plen = 250#8 ∧ t.fb = s.fb) ∧
    (249 < s.plen.toNat → t.plen = s.plen ∧ t.fb = s.fb) ∧
    t = { s with fb := t.fb, plen := t.plen, len := 0#8 }

/-- R106: `BUILD c` raises FrameTooLarge beyond 249; else, over a payload that is in `FB`, it makes exactly the frame
`build_frame` gives, leaves its checksum in `CRC`, sets `LEN` and `RP`, and writes no byte of `FB` but the header's
four and the checksum's two. -/
def Obligations.BuildMakesTheFrame : Prop :=
  (∀ c : Byte, decodeWord (0x17#5 ++ c) = .instr (.build c)) ∧
  ∀ (c : Byte) (s : State),
    (249 < s.plen.toNat → exec (.build c) s = .next { s with toolarge := true, len := 0#8, rp := 0#8 }) ∧
    ∀ p : List Byte, s.plen.toNat ≤ 249 → fbLoad s.fb 4 s.plen.toNat = .ok p →
      ∃ (t : State) (f : List Byte), exec (.build c) s = .next t ∧ buildFrame c p = some f ∧
        buildLength s.toBlock = s.plen.toNat + 6 ∧ fbLoad t.fb 0 (buildLength s.toBlock) = .ok f ∧
        t.crc = crc16 (f.take (buildLength s.toBlock - 2)) ∧ t.len.toNat = buildLength s.toBlock ∧ t.rp = 0#8 ∧
        (∀ a, 4 ≤ a → a ≠ buildLength s.toBlock - 2 → a ≠ buildLength s.toBlock - 1 → t.fb.read a = s.fb.read a) ∧
        t = { s with fb := t.fb, crc := t.crc, len := t.len, rp := t.rp }

/-- R107 and R108, and `RDPTR` beside them: they return their registers and change no state; where the invariants
hold, `PLEN` is at most 250, and `LEN` is 0 or the frame's length 6 to 255, which is the frame's own `LENGTH` byte. -/
def Obligations.RegisterReadsReturnTheRegister : Prop :=
  (∀ d : Byte, decodeWord (0x06#5 ++ d) = .instr .rdPlen ∧ decodeWord (0x08#5 ++ d) = .instr .rdLen ∧
    decodeWord (0x09#5 ++ d) = .instr .rdPtr) ∧
  encode .rdPlen = .word 0x0600#13 ∧ encode .rdLen = .word 0x0800#13 ∧ encode .rdPtr = .word 0x0900#13 ∧
  ∀ s : State,
    exec .rdPlen s = .next { s with returned := s.returned ++ [s.plen] } ∧
    exec .rdLen s = .next { s with returned := s.returned ++ [s.len] } ∧
    exec .rdPtr s = .next { s with returned := s.returned ++ [s.rp] } ∧
    (Invariants s.toBlock → s.plen.toNat ≤ 250 ∧
      (s.len = 0#8 ∨ (6 ≤ s.len.toNat ∧ s.fb.read 2 = some s.len)))

/-- R110: `WRPTR p` stores any value in `RP` and changes nothing else; a value at or beyond `LEN` makes the next `RDFRB`
return 0x00, with `RP` staying. -/
def Obligations.WrPtrStoresAnyPointer : Prop :=
  (∀ p : Byte, decodeWord (0x19#5 ++ p) = .instr (.wrPtr p)) ∧
  ∀ (p : Byte) (s : State), exec (.wrPtr p) s = .next { s with rp := p } ∧
    (s.len.toNat ≤ p.toNat →
      exec .rdFrb { s with rp := p } = .next { s with rp := p, returned := s.returned ++ [0x00#8] })

/-- R111: inside the frame `RDFRB` returns the byte at `RP` and moves `RP` on by one, without wrapping; outside it
returns 0x00 and changes no state; a whole frame read from `RP = 0` comes in offset order and leaves `RP = LEN`. -/
def Obligations.RdFrbReadsTheFrameInOrder : Prop :=
  (∀ d : Byte, decodeWord (0x0A#5 ++ d) = .instr .rdFrb) ∧ encode .rdFrb = .word 0x0A00#13 ∧
  (∀ (s : State) (d : Byte), s.rp.toNat < s.len.toNat → s.fb.read s.rp.toNat = some d →
    ∃ t, exec .rdFrb s = .next t ∧ t = { s with rp := t.rp, returned := s.returned ++ [d] } ∧
      t.rp.toNat = s.rp.toNat + 1) ∧
  (∀ s : State, s.len.toNat ≤ s.rp.toNat →
    exec .rdFrb s = .next { s with returned := s.returned ++ [0x00#8] }) ∧
  ∀ (s : State) (f : List Byte), s.rp = 0#8 → fbLoad s.fb 0 s.len.toNat = .ok f →
    runWords (List.replicate s.len.toNat 0x0A00#13) s =
      .next { s with rp := s.len, returned := s.returned ++ f }

/-- R112: `RDSTAT` returns `VALID`, `TOOLARGE`, `PLFULL` in bits 0, 1, 2 and zeros above, changes no state, and in
every state the invariants hold of returns 0x00, 0x01, 0x04 or 0x06. -/
def Obligations.RdStatReturnsTheThreeConditions : Prop :=
  (∀ d : Byte, decodeWord (0x0B#5 ++ d) = .instr .rdStat) ∧ encode .rdStat = .word 0x0B00#13 ∧
  ∀ s : State, ∃ b : Byte, exec .rdStat s = .next { s with returned := s.returned ++ [b] } ∧
    b.getLsbD 0 = decide (s.len ≠ 0#8) ∧ b.getLsbD 1 = s.toolarge ∧ b.getLsbD 2 = decide (s.plen = 250#8) ∧
    (∀ i, 3 ≤ i → b.getLsbD i = false) ∧
    (Invariants s.toBlock → b = 0x00#8 ∨ b = 0x01#8 ∨ b = 0x04#8 ∨ b = 0x06#8)

/-- R164 and R166: a `BUILD` that succeeds leaves in `CRC` the two bytes that stand at the frame's end, one that fails
leaves `CRC` alone; and a second `BUILD` without `PLCLR` makes a frame of the new code with the payload kept. -/
def Obligations.BuildOverwritesCrcAndKeepsThePayload : Prop :=
  ∀ (c : Byte) (s t : State), exec (.build c) s = .next t →
    (249 < s.plen.toNat → t.crc = s.crc) ∧
    (s.plen.toNat ≤ 249 →
      t.fb.read (t.len.toNat - 2) = some (t.crc.extractLsb' 0 8) ∧
      t.fb.read (t.len.toNat - 1) = some (t.crc.extractLsb' 8 8) ∧
      ∃ (p f : List Byte), p.length = s.plen.toNat ∧ buildFrame c p = some f ∧
        fbLoad t.fb 0 t.len.toNat = .ok f ∧
        ∀ c' : Byte, ∃ (u : State) (f' : List Byte), exec (.build c') t = .next u ∧
          buildFrame c' p = some f' ∧ fbLoad u.fb 0 u.len.toNat = .ok f')

/-- R113: the pseudo-operation `FRAME`, from any state: a payload of at most 249 bytes gives `STATUS` 0x01, the
length and exactly the frame's bytes; a longer one gives `STATUS` 0x06, length 0 and then 0x00. Where the payload
is empty and `TOOLARGE` clear, as after reset, the leading `PLCLR` may be left out. -/
def Obligations.FrameTransaction : Prop :=
  ∀ (c : Byte) (p : List Byte) (s : State),
    (∀ f, buildFrame c p = some f →
      p.length ≤ 249 ∧ ∃ t, runWords (frameBuildWords c p ++ frameReadoutWords f.length) s = .next t ∧
        t.returned = s.returned ++ [0x01#8, BitVec.ofNat 8 (p.length + 6)] ++ f) ∧
    (buildFrame c p = none →
      250 ≤ p.length ∧ ∃ t, runWords (frameBuildWords c p ++ [0x0B00#13, 0x0800#13, 0x0A00#13]) s = .next t ∧
        t.returned = s.returned ++ [0x06#8, 0x00#8, 0x00#8]) ∧
    (s.plen = 0#8 → s.len = 0#8 → s.toolarge = false →
      runWords ((frameBuildWords c p).tail) s = runWords (frameBuildWords c p) s)

/-- R113: `CRCINIT` and `CRCUPD` put anywhere into a `FRAME` sequence change none of the bytes it returns, for a
payload that fits and for one that is too large. -/
def Obligations.CrcOperationsDoNotDisturbAFrame : Prop :=
  ∀ (c : Byte) (p : List Byte) (us : List OpWord) (s : State),
    (∀ f, buildFrame c p = some f →
      WithCrcWords (frameBuildWords c p ++ frameReadoutWords f.length) us →
      ∃ t, runWords us s = .next t ∧
        t.returned = s.returned ++ [0x01#8, BitVec.ofNat 8 (p.length + 6)] ++ f) ∧
    (buildFrame c p = none →
      WithCrcWords (frameBuildWords c p ++ [0x0B00#13, 0x0800#13, 0x0A00#13]) us →
      ∃ t, runWords us s = .next t ∧ t.returned = s.returned ++ [0x06#8, 0x00#8, 0x00#8])

/-! ## The command pseudo-operations -/

/-- R122, R123, R125, R127 to R131: the eight commands without operand, with their words, frames and checksums. That
`exec` of a command gives the state after its whole sequence in one step is the model's choice (log entry 6). -/
def Obligations.PlainCommandsProduceTheirFrames : Prop :=
  ∀ s : State,
    CommandEffect .cReset [0x1400#13, 0x1730#13] 0 [0x02#8, 0x03#8, 0x06#8, 0x30#8, 0x41#8, 0xB3#8] 0xB341#16 s ∧
    CommandEffect .cStatus [0x1400#13, 0x1731#13] 0 [0x02#8, 0x03#8, 0x06#8, 0x31#8, 0xC8#8, 0xA2#8] 0xA2C8#16 s ∧
    CommandEffect .cPoll [0x1400#13, 0x1733#13] 0 [0x02#8, 0x03#8, 0x06#8, 0x33#8, 0xDA#8, 0x81#8] 0x81DA#16 s ∧
    CommandEffect .cStack [0x1400#13, 0x1735#13] 0 [0x02#8, 0x03#8, 0x06#8, 0x35#8, 0xEC#8, 0xE4#8] 0xE4EC#16 s ∧
    CommandEffect .cReturn [0x1400#13, 0x1736#13] 0 [0x02#8, 0x03#8, 0x06#8, 0x36#8, 0x77#8, 0xD6#8] 0xD677#16 s ∧
    CommandEffect .cIdent [0x1400#13, 0x1737#13] 0 [0x02#8, 0x03#8, 0x06#8, 0x37#8, 0xFE#8, 0xC7#8] 0xC7FE#16 s ∧
    CommandEffect .cAck [0x1400#13, 0x1700#13] 0 [0x02#8, 0x03#8, 0x06#8, 0x00#8, 0xC2#8, 0x82#8] 0x82C2#16 s ∧
    CommandEffect .cNsc [0x1400#13, 0x17FF#13] 0 [0x02#8, 0x03#8, 0x06#8, 0xFF#8, 0xBA#8, 0x8D#8] 0x8DBA#16 s

/-- R124: `C.SECURITY m`, for every mask: its words, its frame, and its checksum in both of the rule's forms. That
`exec` of it gives the state after its whole sequence in one step is the model's choice (log entry 6). -/
def Obligations.SecurityCommandCarriesTheMask : Prop :=
  ∀ (m : Byte) (s : State), ∃ lo hi : Byte,
    (hi ++ lo : BitVec 16) = crc16 [0x02#8, 0x03#8, 0x09#8, 0x32#8, 0x00#8, 0x00#8, m] ∧
    (hi ++ lo : BitVec 16) = crcByte 0xDFEF#16 m ∧
    (hi ++ lo : BitVec 16) = 0x1F26#16 ^^^ crcByte 0x0000#16 m ∧
    CommandEffect (.cSecurity m) [0x1400#13, 0x1500#13, 0x1500#13, 0x15#5 ++ m, 0x1732#13] 3
      [0x02#8, 0x03#8, 0x09#8, 0x32#8, 0x00#8, 0x00#8, m, lo, hi] (hi ++ lo) s

/-- R126 and R132: `C.ENABLE m` honours the caller's mask: its words, its frame, and its checksum in both of the
rule's forms. That `exec` of it gives the state after its whole sequence in one step is the model's choice (log
entry 6). -/
def Obligations.EnableCommandHonoursTheMask : Prop :=
  ∀ (m : Byte) (s : State), ∃ lo hi : Byte,
    (hi ++ lo : BitVec 16) =
      crc16 [0x02#8, 0x03#8, 0x0C#8, 0x34#8, 0x00#8, 0x00#8, m, 0x00#8, 0x00#8, 0x00#8] ∧
    (hi ++ lo : BitVec 16) = 0x0C17#16 ^^^ crc16 [m, 0x00#8, 0x00#8, 0x00#8] ∧
    CommandEffect (.cEnable m)
      [0x1400#13, 0x1500#13, 0x1500#13, 0x15#5 ++ m, 0x1500#13, 0x1500#13, 0x1500#13, 0x1734#13] 6
      [0x02#8, 0x03#8, 0x0C#8, 0x34#8, 0x00#8, 0x00#8, m, 0x00#8, 0x00#8, 0x00#8, lo, hi] (hi ++ lo) s

/-- R120: running a command pseudo-operation in one `exec` is running its bus operations one step at a time, build
part and readout part, from any state. (That it is one `exec` at all is the model's choice, log entry 6.) -/
def Obligations.CommandIsItsSequenceOfOperations : Prop :=
  ∀ (i : Instr) (c : Byte) (p : List Byte), commandOf i = some (c, p) →
    ∀ s : State, exec i s = runWords (commandWords c p) s

/-! ## The exception -/

/-- R141: `raise FrameTooLarge` sets `TOOLARGE`, clears `LEN` and `RP`, and changes nothing else: `FB`, `CRC` and
`PLEN` stay, and no frame can be read after it. -/
def Obligations.FrameTooLargeHasItsThreeEffects : Prop :=
  ∀ (c : Byte) (s : State), 249 < s.plen.toNat →
    ∃ t : State, exec (.build c) s = .next t ∧ t = { s with toolarge := true, len := 0#8, rp := 0#8 } ∧
      exec .rdLen t = .next { t with returned := t.returned ++ [0x00#8] } ∧
      exec .rdFrb t = .next { t with returned := t.returned ++ [0x00#8] }

/-- R140 and R25: over every operation word and the reset input, `TOOLARGE` becomes 1 only by a `BUILD` that finds
`PLEN = 250`, and becomes 0 only by `PLCLR` and reset. -/
def Obligations.TooLargeSetByBuildClearedByPlClrAndReset : Prop :=
  ∀ (s t : State) (e : HostEvent) (rest : List HostEvent), Invariants s.toBlock → s.pending = e :: rest →
    (e = .reset ∨ ∃ w, e = wordEvent w) → step s = .next t → t.toolarge ≠ s.toolarge →
    (t.toolarge = true ∧ s.plen = 250#8 ∧ ∃ w c, e = wordEvent w ∧ decodeWord w = .instr (.build c)) ∨
    (t.toolarge = false ∧ (e = .reset ∨ ∃ w, e = wordEvent w ∧ decodeWord w = .instr .plClr))

/-- R146: once raised, the condition stays, with `PLEN` at 250, under every operation but `PLCLR`; a further `BUILD`
raises it again and changes no more than `RP`; `PLCLR` clears it and empties the payload; reset clears it. -/
def Obligations.TooLargeStaysUntilPlClrOrReset : Prop :=
  ∀ s : State, Invariants s.toBlock → s.toolarge = true →
    (∀ (t : State) (w : OpWord) (rest : List HostEvent), s.pending = wordEvent w :: rest →
      decodeWord w ≠ .instr .plClr → step s = .next t → t.toolarge = true ∧ t.plen = 250#8) ∧
    (∀ c, exec (.build c) s = .next { s with rp := 0#8 }) ∧
    (∃ t, exec .plClr s = .next t ∧ t.toolarge = false ∧ t.plen = 0#8) ∧
    (∀ (t : State) (rest : List HostEvent), s.pending = .reset :: rest → step s = .next t → t.toolarge = false)

/-! ## The step, reset, and reserved accesses -/

/-- A step runs what the next event decodes to, on the state with that event taken off the stream; a reset event
takes the reset; with nothing presented the state is held; what is no encoding is refused by name. The stream in the
state is the model's choice (log entries 1, 12 and 14). -/
def Obligations.StepRunsTheNextEvent : Prop :=
  ∀ (s : State) (rest : List HostEvent),
    (∀ (c : Code) (i : Instr), s.pending = .present c :: rest → decode c = .ok (.instr i) →
      step s = exec i { s with pending := rest }) ∧
    (∀ (c : Code) (r : Reject), s.pending = .present c :: rest → decode c = .error r →
      step s = .refused (.notAnEncoding r)) ∧
    (s.pending = .reset :: rest → step s = .next { s with toBlock := Block.reset, pending := rest }) ∧
    (s.pending = [] → step s = .next s)

/-- R34 and R20: the step relation is on the six items alone, with the operation or the reset as its parameter. The host
interface's step is that relation under the next event of the port, and a run over given events is the block's run
under them: what is pending behind them, and what has been returned before, changes nothing. (That the port stands
beside the block in the machine's state is the model's choice, log entries 1 and 2.) -/
def Obligations.StepIsTheBlocksStepUnderTheNextEvent : Prop :=
  (∀ (s : State) (e : HostEvent) (rest : List HostEvent), s.pending = e :: rest →
    step s = onPort (blockStep e) { s with pending := rest }) ∧
  ∀ (evs : List HostEvent) (s : State),
    Host.Core.run Sys2Proof.core evs.length (s.given evs) = onPort (blockRun evs) s

/-- R65: a reserved write changes no state; a reserved read returns 0x00 and changes no state; all nineteen. -/
def Obligations.ReservedAccessesChangeNothing : Prop :=
  ∀ (s : State) (d : Byte) (rest : List HostEvent),
    (∀ wa ∈ [0x12#5, 0x13#5, 0x16#5, 0x18#5, 0x1A#5, 0x1B#5, 0x1C#5, 0x1D#5, 0x1E#5, 0x1F#5],
      s.pending = wordEvent (wa ++ d) :: rest → step s = .next { s with pending := rest }) ∧
    (∀ wa ∈ [0x00#5, 0x01#5, 0x04#5, 0x05#5, 0x07#5, 0x0C#5, 0x0D#5, 0x0E#5, 0x0F#5],
      s.pending = wordEvent (wa ++ d) :: rest →
        step s = .next { s with pending := rest, returned := s.returned ++ [0x00#8] })

/-- R161 and R33: the reset input gives the registers their reset values whatever they were, and leaves no byte of
`FB` that could be read. That an unspecified byte is "no value" is the model's choice (log entry 4), and so is that
the host's stream and what it has read stay (log entry 16). -/
def Obligations.ResetGivesTheResetState : Prop :=
  ∀ (s : State) (rest : List HostEvent), s.pending = .reset :: rest →
    ∃ t, step s = .next t ∧ t.crc = 0x0000#16 ∧ t.plen = 0#8 ∧ t.len = 0#8 ∧ t.rp = 0#8 ∧ t.toolarge = false ∧
      statusByte t.toBlock = 0x00#8 ∧ (∀ a, t.fb.read a = none) ∧ t.pending = rest ∧ t.returned = s.returned

/-- R163: nothing has to be initialised: after reset every operation word is executed, `CRCUPD` starts from 0, and
`BUILD 0x30` yields the Reset frame. -/
def Obligations.ReadyRightAfterReset : Prop :=
  (∀ w : OpWord, ∃ t, runWords [w] State.reset = .next t) ∧
  (∀ b : Byte, ∃ t, runWords [0x11#5 ++ b] State.reset = .next t ∧ t.crc = crc16 [b]) ∧
  (∃ t, runWords [0x1730#13] State.reset = .next t ∧
    fbLoad t.fb 0 t.len.toNat = .ok [0x02#8, 0x03#8, 0x06#8, 0x30#8, 0x41#8, 0xB3#8])

/-! ## Whole-machine rules -/

/-- The invariants of R32 hold in the reset state (R33). -/
def Obligations.ResetStateMeetsInvariants : Prop := Invariants Block.reset

/-- Every step from a state the invariants of R32 hold of gives a state they hold of: operations, reserved
accesses, pseudo-operations, reset and idling. -/
def Obligations.EveryStepKeepsInvariants : Prop :=
  ∀ s t : State, Invariants s.toBlock → step s = .next t → Invariants t.toBlock

/-- R32: in every state reachable from reset by any sequence of bus operations and resets, all six items hold; and
no such sequence stops on its way. -/
def Obligations.InvariantsHoldOfEveryReachableState : Prop :=
  ∀ evs : List HostEvent, (∀ e ∈ evs, e = .reset ∨ ∃ w, e = wordEvent w) →
    ∃ t : State, Host.Core.run Sys2Proof.core evs.length (State.reset.given evs) = .next t ∧ t.pending = [] ∧
      RuleInvariants t.toBlock

/-- R52: where the invariants hold, no operation word, reset or pseudo-operation stops: the next event is taken
and a state results. -/
def Obligations.NoStepStopsWhereInvariantsHold : Prop :=
  ∀ (s : State) (e : HostEvent) (rest : List HostEvent), Invariants s.toBlock → s.pending = e :: rest →
    (e = .reset ∨ ∃ c d, e = .present c ∧ decode c = .ok d) →
    ∃ t, step s = .next t ∧ t.pending = rest

/-- The model's stops (log entries 4 and 5): `RDFRB` and `BUILD` stop, by name, where they would read a byte that
nothing has written; that is the only way any instruction stops, at an offset the operation reads and no byte stands
at; and no instruction ever forms an offset that does not exist (R41). -/
def Obligations.OnlyAnUnwrittenByteStopsAnOperation : Prop :=
  (∀ s : State, s.rp.toNat < s.len.toNat → s.fb.read s.rp.toNat = none →
    exec .rdFrb s = .fault (.unwrittenFrameByte s.rp.toNat)) ∧
  (∀ (s : State) (c : Byte) (k : Nat), s.plen.toNat ≤ 249 → k < s.plen.toNat →
    (∀ j < k, (s.fb.read (4 + j)).isSome) → s.fb.read (4 + k) = none →
    exec (.build c) s = .fault (.unwrittenFrameByte (4 + k))) ∧
  ∀ (i : Instr) (s : State),
    (∀ r, exec i s = .fault r → ∃ a, r = .unwrittenFrameByte a ∧ s.fb.read a = none ∧
      ((i = .rdFrb ∧ a = s.rp.toNat ∧ s.rp.toNat < s.len.toNat) ∨
        (s.plen.toNat ≤ 249 ∧ 4 ≤ a ∧ a < 4 + s.plen.toNat ∧ ∃ c, i = .build c))) ∧
    (∀ a, exec i s ≠ .fault (.noSuchFrameOffset a)) ∧ ∀ r, exec i s ≠ .refused r

/-- R46: a read other than an `RDFRB` inside the frame changes no state and returns one byte; that `RDFRB` returns the
frame byte and moves `RP` on, and changes nothing else; a write returns nothing. -/
def Obligations.OneReadHasASideEffect : Prop :=
  ∀ (s t : State) (w : OpWord) (rest : List HostEvent), s.pending = wordEvent w :: rest → step s = .next t →
    (opIsWrite w = true → t.returned = s.returned) ∧
    (opIsWrite w = false → ∃ b : Byte,
      (¬ (decodeWord w = .instr .rdFrb ∧ s.rp.toNat < s.len.toNat) ∧
        t = { s with pending := rest, returned := s.returned ++ [b] }) ∨
      (decodeWord w = .instr .rdFrb ∧ s.rp.toNat < s.len.toNat ∧ s.fb.read s.rp.toNat = some b ∧
        t = { s with pending := rest, rp := s.rp + 1#8, returned := s.returned ++ [b] }))

/-- R21 to R26: over every operation word, each item of the state is written by the operations its rule names and
by no other. -/
def Obligations.EachItemIsWrittenByItsOperationsOnly : Prop :=
  ∀ (s t : State) (w : OpWord) (rest : List HostEvent), s.pending = wordEvent w :: rest → step s = .next t →
    (t.crc ≠ s.crc → decodeWord w = .instr .crcInit ∨ (∃ b, decodeWord w = .instr (.crcUpd b)) ∨
      (s.plen.toNat ≤ 249 ∧ ∃ c, decodeWord w = .instr (.build c))) ∧
    (t.plen ≠ s.plen → decodeWord w = .instr .plClr ∨ ∃ b, decodeWord w = .instr (.plPush b)) ∧
    (t.len ≠ s.len → decodeWord w = .instr .plClr ∨ (∃ b, decodeWord w = .instr (.plPush b)) ∨
      ∃ c, decodeWord w = .instr (.build c)) ∧
    (t.rp ≠ s.rp → (∃ p, decodeWord w = .instr (.wrPtr p)) ∨ decodeWord w = .instr .rdFrb ∨
      ∃ c, decodeWord w = .instr (.build c)) ∧
    (t.toolarge ≠ s.toolarge → decodeWord w = .instr .plClr ∨
      (249 < s.plen.toNat ∧ ∃ c, decodeWord w = .instr (.build c))) ∧
    (∀ a, t.fb.read a ≠ s.fb.read a →
      (s.plen.toNat < 249 ∧ a = pushOffset s.toBlock ∧ ∃ b, decodeWord w = .instr (.plPush b)) ∨
      (s.plen.toNat ≤ 249 ∧ (a < 4 ∨ a = buildLength s.toBlock - 2 ∨ a = buildLength s.toBlock - 1) ∧
        ∃ c, decodeWord w = .instr (.build c)))

/-- R175: bytes of `FB` outside the frame and outside the payload gathered cannot show: from two states that differ in
nothing else, with the same port, every step has the same outcome, up to such bytes, and leaves the same port: the
same bytes returned. -/
def Obligations.UnobservableBytesStayUnobservable : Prop :=
  ∀ s t : State, SameObservable s.toBlock t.toBlock → s.toPort = t.toPort →
    (∀ s', step s = .next s' →
      ∃ t', step t = .next t' ∧ SameObservable s'.toBlock t'.toBlock ∧ s'.toPort = t'.toPort) ∧
    (∀ r, step s = .fault r → step t = .fault r) ∧ (∀ r, step s = .refused r → step t = .refused r)

/-- The canonical form of `FB` does its work: a write keeps it and changes one byte, and two memories in that form
that read alike are equal data (log entry 4). -/
def Obligations.EqualFrameBuffersAreEqualData : Prop :=
  (∀ (m : Memory) (a : Nat) (b : Byte), m.wf → a < 255 → (m.write a b).wf ∧ (m.write a b).read a = some b ∧
    ∀ x, x ≠ a → (m.write a b).read x = m.read x) ∧
  ∀ m m' : Memory, m.wf → m'.wf → (∀ a, m.read a = m'.read a) → m = m'
end

