-- ==== Sys2Proof/Laws/Codec.lean ====
section
/-! SUPPORT. The two pure functions: lengths, and the checksum of a sequence in two parts. -/

namespace Sys2Proof.Machine

@[simp] theorem crcRun_nil (v : Crc) : crcRun v [] = v := rfl
@[simp] theorem crcRun_cons (v : Crc) (b : Byte) (bs : List Byte) :
    crcRun v (b :: bs) = crcRun (crcByte v b) bs := rfl

/-- The checksum of a sequence goes on from the checksum of its first part. -/
theorem crcRun_append (v : Crc) (xs ys : List Byte) : crcRun v (xs ++ ys) = crcRun (crcRun v xs) ys := by
  induction xs generalizing v with
  | nil => rfl
  | cons b xs ih => exact ih (crcByte v b)

theorem crc16_append (xs ys : List Byte) : crc16 (xs ++ ys) = crcRun (crc16 xs) ys :=
  crcRun_append _ xs ys

@[simp] theorem frameHead_length (c : Byte) (p : List Byte) : (frameHead c p).length = p.length + 4 := by
  simp [frameHead]

@[simp] theorem withChecksum_length (h : List Byte) : (withChecksum h).length = h.length + 2 := by
  simp [withChecksum]

theorem buildFrame_of_le {c : Byte} {p : List Byte} (h : p.length ≤ Config.maxPayload) :
    buildFrame c p = some (withChecksum (frameHead c p)) := by
  simp [buildFrame, h]

theorem buildFrame_of_gt {c : Byte} {p : List Byte} (h : Config.maxPayload < p.length) :
    buildFrame c p = none := by
  simp [buildFrame, Nat.not_le.2 h]

/-- The two checksum bytes, high byte in the high bits, are the checksum. -/
theorem crcHigh_append_crcLow (v : Crc) : (crcHigh v ++ crcLow v : BitVec 16) = v := by
  apply BitVec.eq_of_getLsbD_eq
  intro i hi
  simp only [crcHigh, crcLow, BitVec.getLsbD_append, BitVec.getLsbD_extractLsb']
  split
  · next h => simp [h]
  · next h =>
    have h2 : i - 8 < 8 := by omega
    have h3 : 8 + (i - 8) = i := by omega
    simp [h2, h3]

end Sys2Proof.Machine
end

