-- ==== Sys2Proof/Laws/Decode.lean ====
section
/-! SUPPORT. The fields of a word put together from its five selecting bits and its data byte. -/

namespace Sys2Proof

@[simp] theorem opAddr_append (x : BitVec 5) (d : Byte) : Machine.opAddr (x ++ d) = x.extractLsb' 0 4 := by
  apply BitVec.eq_of_getLsbD_eq
  intro i hi
  simp only [Machine.opAddr, BitVec.getLsbD_extractLsb', BitVec.getLsbD_append]
  simp [hi, show ¬ (8 + i < 8) by omega]

@[simp] theorem opData_append (x : BitVec 5) (d : Byte) : Machine.opData (x ++ d) = d := by
  apply BitVec.eq_of_getLsbD_eq
  intro i hi
  simp only [Machine.opData, BitVec.getLsbD_extractLsb', BitVec.getLsbD_append]
  simp [hi]

@[simp] theorem opIsWrite_append (x : BitVec 5) (d : Byte) : Machine.opIsWrite (x ++ d) = x.getLsbD 4 := by
  simp only [Machine.opIsWrite, BitVec.getLsbD_append]
  simp

/-- A word is its five selecting bits and its data byte. -/
theorem opWord_split (w : OpWord) : w = (w.extractLsb' 8 5 : BitVec 5) ++ (w.extractLsb' 0 8 : BitVec 8) := by
  apply BitVec.eq_of_getLsbD_eq
  intro i hi
  simp only [BitVec.getLsbD_extractLsb', BitVec.getLsbD_append]
  split
  · next h => simp [h]
  · next h => simp [show i - 8 < 5 by omega, show 8 + (i - 8) = i by omega]

/-- Decoding looks at the five selecting bits alone, and hands the data byte on (`30_encoding.md` R66). -/
theorem decodeWord_append (x : BitVec 5) (d : Byte) : decodeWord (x ++ d) =
    if x.getLsbD 4 then
      match (Reg.ofAddr (x.extractLsb' 0 4)).bind (writeOp · d) with
      | some i => .instr i
      | none => .reservedWrite (x.extractLsb' 0 4) d
    else
      match (Reg.ofAddr (x.extractLsb' 0 4)).bind readOp with
      | some i => .instr i
      | none => .reservedRead (x.extractLsb' 0 4) := by
  unfold decodeWord
  rw [opAddr_append, opData_append, opIsWrite_append] <;> rfl

end Sys2Proof
end

