-- ==== Sys2Proof/Laws/State.lean ====
section
/-! SUPPORT. One lemma per field per named update of the block, what sequencing does with each outcome, and what the
port adds to an effect. -/

namespace Sys2Proof.Machine

@[simp] theorem raise_crc (b : Block) : (raiseFrameTooLarge b).crc = b.crc := rfl
@[simp] theorem raise_plen (b : Block) : (raiseFrameTooLarge b).plen = b.plen := rfl
@[simp] theorem raise_len (b : Block) : (raiseFrameTooLarge b).len = 0#8 := rfl
@[simp] theorem raise_rp (b : Block) : (raiseFrameTooLarge b).rp = 0#8 := rfl
@[simp] theorem raise_toolarge (b : Block) : (raiseFrameTooLarge b).toolarge = true := rfl
@[simp] theorem raise_fb (b : Block) : (raiseFrameTooLarge b).fb = b.fb := rfl

@[simp] theorem clearPayload_crc (b : Block) : (clearPayload b).crc = b.crc := rfl
@[simp] theorem clearPayload_plen (b : Block) : (clearPayload b).plen = 0#8 := rfl
@[simp] theorem clearPayload_len (b : Block) : (clearPayload b).len = 0#8 := rfl
@[simp] theorem clearPayload_rp (b : Block) : (clearPayload b).rp = b.rp := rfl
@[simp] theorem clearPayload_toolarge (b : Block) : (clearPayload b).toolarge = false := rfl
@[simp] theorem clearPayload_fb (b : Block) : (clearPayload b).fb = b.fb := rfl

@[simp] theorem Block.reset_crc : Block.reset.crc = 0x0000#16 := rfl
@[simp] theorem Block.reset_plen : Block.reset.plen = 0#8 := rfl
@[simp] theorem Block.reset_len : Block.reset.len = 0#8 := rfl
@[simp] theorem Block.reset_rp : Block.reset.rp = 0#8 := rfl
@[simp] theorem Block.reset_toolarge : Block.reset.toolarge = false := rfl
@[simp] theorem Block.reset_fb : Block.reset.fb = [] := rfl

@[simp] theorem State.reset_toBlock : State.reset.toBlock = Block.reset := rfl
@[simp] theorem State.reset_pending : State.reset.pending = [] := rfl
@[simp] theorem State.reset_returned : State.reset.returned = [] := rfl

@[simp] theorem State.withFetchWord_pending (s : State) (n w : Nat) :
    (s.withFetchWord n w).pending = .present (codeOfTable n w) :: s.pending := rfl
@[simp] theorem State.withFetchWord_toBlock (s : State) (n w : Nat) : (s.withFetchWord n w).toBlock = s.toBlock := rfl
@[simp] theorem State.withFetchWord_returned (s : State) (n w : Nat) :
    (s.withFetchWord n w).returned = s.returned := rfl

@[simp] theorem leave_inj {b b' : Block} : leave b = leave b' ↔ b = b' := by simp [leave]
theorem leave_eq_next {b : Block} {r : Reply} : leave b = .next r ↔ r = ⟨b, []⟩ := by simp [leave, eq_comm]
theorem answer_eq_next {v : Byte} {b : Block} {r : Reply} : answer v b = .next r ↔ r = ⟨b, [v]⟩ := by
  simp [answer, eq_comm]

@[simp] theorem Reply.after_next (bs : List Byte) (r : Reply) :
    Reply.after bs (.next r) = .next ⟨r.block, bs ++ r.bytes⟩ := rfl
@[simp] theorem Reply.after_fault (bs : List Byte) (f : Fault) : Reply.after bs (.fault f) = .fault f := rfl
@[simp] theorem Reply.after_refused (bs : List Byte) (f : Refusal) : Reply.after bs (.refused f) = .refused f := rfl
@[simp] theorem Reply.after_nil (e : Effect) : Reply.after [] e = e := by cases e <;> rfl
@[simp] theorem Reply.after_after (bs cs : List Byte) (e : Effect) :
    Reply.after bs (Reply.after cs e) = Reply.after (bs ++ cs) e := by
  cases e <;> simp

@[simp] theorem andThen_next (r : Reply) (f : Block → Effect) :
    andThen (.next r) f = Reply.after r.bytes (f r.block) := rfl
@[simp] theorem andThen_leave (b : Block) (f : Block → Effect) : andThen (leave b) f = f b := by simp [leave]
@[simp] theorem andThen_answer (v : Byte) (b : Block) (f : Block → Effect) :
    andThen (answer v b) f = Reply.after [v] (f b) := rfl
@[simp] theorem andThen_fault (r : Fault) (f : Block → Effect) : andThen (.fault r) f = .fault r := rfl
@[simp] theorem andThen_refused (r : Refusal) (f : Block → Effect) : andThen (.refused r) f = .refused r := rfl
@[simp] theorem andThen_leave_right (o : Effect) : andThen o leave = o := by
  cases o <;> simp [leave]

/-- A sequence answers a next block only through a next block of its first part, the bytes returned in order. -/
theorem andThen_eq_next {o : Effect} {f : Block → Effect} {r : Reply} :
    andThen o f = .next r ↔ ∃ r1 r2, o = .next r1 ∧ f r1.block = .next r2 ∧ r = ⟨r2.block, r1.bytes ++ r2.bytes⟩ := by
  cases o with
  | next r1 => cases h : f r1.block <;> simp [h, eq_comm]
  | fault f => simp
  | refused f => simp

theorem andThen_after (bs : List Byte) (o : Effect) (f : Block → Effect) :
    andThen (Reply.after bs o) f = Reply.after bs (andThen o f) := by
  cases o <;> simp

theorem andThen_assoc (o : Effect) (f g : Block → Effect) :
    andThen (andThen o f) g = andThen o fun b => andThen (f b) g := by
  cases o with
  | next r => simp [andThen_after]
  | fault f => rfl
  | refused f => rfl

@[simp] theorem State.take_toBlock (s : State) (r : Reply) : (s.take r).toBlock = r.block := rfl
@[simp] theorem State.take_pending (s : State) (r : Reply) : (s.take r).pending = s.pending := rfl
@[simp] theorem State.take_returned (s : State) (r : Reply) : (s.take r).returned = s.returned ++ r.bytes := rfl
@[simp] theorem State.take_take (s : State) (r r' : Reply) :
    (s.take r).take r' = s.take ⟨r'.block, r.bytes ++ r'.bytes⟩ := by
  simp [State.take]

/-- What the port makes of an effect that goes on. -/
theorem onPort_of_next {f : Block → Effect} {s : State} {r : Reply} (h : f s.toBlock = .next r) :
    onPort f s = .next (s.take r) := by
  simp [onPort, h]

theorem onPort_of_fault {f : Block → Effect} {s : State} {r : Fault} (h : f s.toBlock = .fault r) :
    onPort f s = .fault r := by
  simp [onPort, h]

theorem onPort_of_refused {f : Block → Effect} {s : State} {r : Refusal} (h : f s.toBlock = .refused r) :
    onPort f s = .refused r := by
  simp [onPort, h]

theorem onPort_of_leave {f : Block → Effect} {s : State} {b : Block} (h : f s.toBlock = leave b) :
    onPort f s = .next { s with toBlock := b } := by
  simp [onPort, h, leave, State.take]

theorem onPort_of_answer {f : Block → Effect} {s : State} {v : Byte} {b : Block} (h : f s.toBlock = answer v b) :
    onPort f s = .next { s with toBlock := b, returned := s.returned ++ [v] } := by
  simp [onPort, h, answer, State.take]

/-- All a next state at the port can be: the block as the effect leaves it, the stream untouched, the bytes returned
joined to the record. -/
theorem onPort_eq_next {f : Block → Effect} {s t : State} :
    onPort f s = .next t ↔ ∃ r, f s.toBlock = .next r ∧ t = s.take r := by
  unfold onPort
  cases f s.toBlock <;> simp [eq_comm]

theorem onPort_eq_fault {f : Block → Effect} {s : State} {r : Fault} :
    onPort f s = .fault r ↔ f s.toBlock = .fault r := by
  unfold onPort
  cases f s.toBlock <;> simp

theorem onPort_eq_refused {f : Block → Effect} {s : State} {r : Refusal} :
    onPort f s = .refused r ↔ f s.toBlock = .refused r := by
  unfold onPort
  cases f s.toBlock <;> simp

end Sys2Proof.Machine
end

