-- ==== Sys2Proof/Laws/Memory.lean ====
section
/-! SUPPORT. The frame buffer: read after write, the canonical form, and one lemma for each of the two operations
over several bytes that says all it can do. -/

namespace Sys2Proof.Machine

@[simp] theorem Memory.read_nil (a : Nat) : Memory.read [] a = none := rfl

/-- A byte read after a write: the byte written at its own offset, the old byte everywhere else. -/
theorem Memory.read_write (m : Memory) (a x : Nat) (b : Byte) :
    (m.write a b).read x = if x = a then some b else m.read x := by
  induction m with
  | nil =>
    simp only [Memory.write, Memory.read]
    by_cases h : a = x <;> simp [h, eq_comm]
  | cons c m ih =>
    obtain ⟨k, v⟩ := c
    simp only [Memory.write]
    split
    · simp only [Memory.read]
      by_cases h : a = x <;> simp [h, eq_comm]
    · split
      · next h1 h2 =>
        subst h2
        simp only [Memory.read]
        by_cases h : a = x <;> simp [h, eq_comm]
      · next h1 h2 =>
        simp only [Memory.read, ih]
        by_cases h : k = x
        · subst h; simp [Ne.symm h2]
        · simp [h]

@[simp] theorem Memory.read_write_same (m : Memory) (a : Nat) (b : Byte) : (m.write a b).read a = some b := by
  simp [Memory.read_write]

theorem Memory.read_write_ne (m : Memory) {a x : Nat} (b : Byte) (h : x ≠ a) :
    (m.write a b).read x = m.read x := by
  simp [Memory.read_write, h]

/-- The cells after a write: the one written, and old ones. -/
theorem Memory.mem_write {m : Memory} {a : Nat} {b : Byte} {x : Host.Cell} (h : x ∈ m.write a b) :
    x = (a, b) ∨ x ∈ m := by
  induction m with
  | nil => simpa [Memory.write] using h
  | cons c m ih =>
    obtain ⟨k, v⟩ := c
    simp only [Memory.write] at h
    split at h
    · simpa using h
    · split at h
      · rcases List.mem_cons.1 h with h | h
        · exact .inl h
        · exact .inr (List.mem_cons_of_mem _ h)
      · rcases List.mem_cons.1 h with h | h
        · exact .inr (by simp [h])
        · rcases ih h with h | h
          · exact .inl h
          · exact .inr (List.mem_cons_of_mem _ h)

/-- A write keeps the canonical form. -/
theorem Memory.write_wf {m : Memory} (hm : m.wf) {a : Nat} (ha : a < Config.maxFrame) (b : Byte) :
    (m.write a b).wf := by
  refine ⟨?_, fun x hx => ?_⟩
  · have hp := hm.1
    clear hm
    induction m with
    | nil => simp [Memory.write]
    | cons c m ih =>
      obtain ⟨k, v⟩ := c
      obtain ⟨h1, h2⟩ := List.pairwise_cons.1 hp
      simp only [Memory.write]
      split
      · next hak =>
        refine List.pairwise_cons.2 ⟨fun x hx => ?_, hp⟩
        rcases List.mem_cons.1 hx with rfl | hx
        · exact hak
        · exact Nat.lt_trans hak (h1 x hx)
      · split
        · next _ hak =>
          subst hak
          exact List.pairwise_cons.2 ⟨h1, h2⟩
        · next h3 h4 =>
          refine List.pairwise_cons.2 ⟨fun x hx => ?_, ih h2⟩
          rcases Memory.mem_write hx with rfl | hx
          · simp only; omega
          · exact h1 x hx
  · rcases Memory.mem_write hx with rfl | hx
    · exact ha
    · exact hm.2 x hx

theorem Memory.nil_wf : Memory.wf [] := by decide

/-- `fbRead` answers a byte exactly where the offset exists and holds one. -/
theorem fbRead_eq_ok {m : Memory} {a : Nat} {b : Byte} :
    fbRead m a = .ok b ↔ a < Config.maxFrame ∧ m.read a = some b := by
  unfold fbRead
  split
  · next h =>
    cases hr : m.read a <;> simp [h]
  · next h => simp [h]

theorem fbRead_of_lt {m : Memory} {a : Nat} (h : a < Config.maxFrame) :
    fbRead m a = match m.read a with
      | some b => .ok b
      | none => .error (.unwrittenFrameByte a) := by
  exact (if_pos h : fbRead m a = _).trans rfl

theorem fbWrite_of_lt {m : Memory} {a : Nat} {b : Byte} (h : a < Config.maxFrame) :
    fbWrite m a b = .ok (m.write a b) := by
  simp [fbWrite, h]

/-- All `fbLoad` can answer with: the bytes at the offsets it covers, which all exist and hold one. -/
theorem fbLoad_eq_ok {m : Memory} {a k : Nat} {bs : List Byte} (h : a + k ≤ Config.maxFrame) :
    fbLoad m a k = .ok bs ↔ bs.length = k ∧ ∀ i < k, m.read (a + i) = bs[i]? := by
  induction k generalizing a bs with
  | zero =>
    constructor
    · intro h; cases h; simp
    · rintro ⟨h, -⟩; rw [List.length_eq_zero_iff.1 h]; rfl
  | succ k ih =>
    rw [fbLoad, fbRead_of_lt (by omega)]
    cases hr : m.read a with
    | none =>
      simp only [reduceCtorEq, false_iff, not_and]
      intro hl hall
      have h0 := hall 0 (by omega)
      cases bs with
      | nil => simp at hl
      | cons b bs => simp [hr] at h0
    | some b =>
      simp only
      cases hl : fbLoad m (a + 1) k with
      | error f =>
        simp only [reduceCtorEq, false_iff, not_and]
        intro hlen hall
        cases bs with
        | nil => simp at hlen
        | cons c bs =>
          have hok := (ih (a := a + 1) (bs := bs) (by omega)).2
            ⟨by simpa using hlen, fun i hi => by
              have h1 := hall (i + 1) (by omega)
              rw [show a + (i + 1) = a + 1 + i by omega] at h1
              simpa using h1⟩
          rw [hl] at hok
          cases hok
      | ok cs =>
        have hcs := (ih (a := a + 1) (bs := cs) (by omega)).1 hl
        simp only [Except.ok.injEq]
        constructor
        · rintro rfl
          refine ⟨by simp [hcs.1], fun i hi => ?_⟩
          cases i with
          | zero => simpa using hr
          | succ i =>
            rw [show a + (i + 1) = a + 1 + i by omega, hcs.2 i (by omega)]
            simp
        · rintro ⟨hlen, hall⟩
          cases bs with
          | nil => simp at hlen
          | cons c bs =>
            have h0 := hall 0 (by omega)
            simp only [Nat.add_zero, hr, List.getElem?_cons_zero, Option.some.injEq] at h0
            have hok := (ih (a := a + 1) (bs := bs) (by omega)).2
              ⟨by simpa using hlen, fun i hi => by
                have h1 := hall (i + 1) (by omega)
                rw [show a + (i + 1) = a + 1 + i by omega] at h1
                simpa using h1⟩
            rw [hl] at hok
            simp only [Except.ok.injEq] at hok
            rw [h0, hok]

/-- `fbLoad` answers bytes when every offset it covers holds one. -/
theorem fbLoad_exists {m : Memory} {a k : Nat} (h : a + k ≤ Config.maxFrame)
    (hs : ∀ i < k, (m.read (a + i)).isSome) : ∃ bs, fbLoad m a k = .ok bs := by
  induction k generalizing a with
  | zero => exact ⟨[], rfl⟩
  | succ k ih =>
    obtain ⟨b, hb⟩ := Option.isSome_iff_exists.1 (hs 0 (by omega))
    obtain ⟨bs, hbs⟩ := ih (a := a + 1) (by omega)
      (fun i hi => by have := hs (i + 1) (by omega); rwa [show a + (i + 1) = a + 1 + i by omega] at this)
    refine ⟨b :: bs, ?_⟩
    rw [fbLoad, fbRead_of_lt (by omega)]
    simp only [Nat.add_zero] at hb
    simp [hb, hbs]

/-- `fbLoad` depends on nothing but the bytes at the offsets it covers. -/
theorem fbLoad_congr {m m' : Memory} {a k : Nat} (h : ∀ i < k, m.read (a + i) = m'.read (a + i)) :
    fbLoad m a k = fbLoad m' a k := by
  induction k generalizing a with
  | zero => rfl
  | succ k ih =>
    have h0 : m.read a = m'.read a := by simpa using h 0 (by omega)
    have h1 := ih (a := a + 1) (fun i hi => by
      have := h (i + 1) (by omega)
      rwa [show a + (i + 1) = a + 1 + i by omega] at this)
    simp only [fbLoad, fbRead, h0, h1]

/-- All `fbStore` can do inside the buffer: it never stops, each byte stands at its offset, every other offset
reads as before, and the canonical form is kept. -/
theorem fbStore_spec {m : Memory} {a : Nat} {bs : List Byte} (h : a + bs.length ≤ Config.maxFrame) :
    ∃ m', fbStore m a bs = .ok m' ∧
      (∀ i < bs.length, m'.read (a + i) = bs[i]?) ∧
      (∀ x, ¬ (a ≤ x ∧ x < a + bs.length) → m'.read x = m.read x) ∧
      (m.wf → m'.wf) := by
  induction bs generalizing m a with
  | nil => exact ⟨m, rfl, by simp, by simp, id⟩
  | cons b bs ih =>
    simp only [List.length_cons] at h
    obtain ⟨m', h1, h2, h3, h4⟩ := ih (m := m.write a b) (a := a + 1) (by omega)
    refine ⟨m', ?_, ?_, ?_, ?_⟩
    · rw [fbStore, fbWrite_of_lt (by omega)]
      exact h1
    · intro i hi
      cases i with
      | zero =>
        rw [Nat.add_zero, h3 a (by omega)]
        simp
      | succ i =>
        simp only [List.length_cons] at hi
        rw [show a + (i + 1) = a + 1 + i by omega, h2 i (by omega)]
        simp
    · intro x hx
      simp only [List.length_cons] at hx
      rw [h3 x (by omega)]
      exact Memory.read_write_ne m b (by omega)
    · exact fun hm => h4 (Memory.write_wf hm (by omega) b)

/-- Two neighbouring loads are one load. -/
theorem fbLoad_append {m : Memory} {a j k : Nat} {xs ys : List Byte} (hx : fbLoad m a j = .ok xs)
    (hy : fbLoad m (a + j) k = .ok ys) : fbLoad m a (j + k) = .ok (xs ++ ys) := by
  induction j generalizing a xs with
  | zero => cases hx; simpa using hy
  | succ j ih =>
    rw [fbLoad] at hx
    rw [show j + 1 + k = j + k + 1 by omega, fbLoad]
    cases hr : fbRead m a with
    | error f => simp [hr] at hx
    | ok b =>
      cases hl : fbLoad m (a + 1) j with
      | error f => simp [hr, hl] at hx
      | ok zs =>
        simp only [hr, hl, Except.ok.injEq] at hx
        subst hx
        rw [ih hl (by rwa [show a + 1 + j = a + (j + 1) by omega])]
        rfl

/-- What was stored is what a load of the same offsets answers. -/
theorem fbLoad_of_read {m : Memory} {a : Nat} {bs : List Byte} (h : a + bs.length ≤ Config.maxFrame)
    (hr : ∀ i < bs.length, m.read (a + i) = bs[i]?) : fbLoad m a bs.length = .ok bs :=
  (fbLoad_eq_ok h).2 ⟨rfl, hr⟩

end Sys2Proof.Machine
end

