-- ==== Sys2Proof/Laws/Meanings.lean ====
section
/-! SUPPORT. One lemma per meaning that does more than write registers: everything it can do. -/

namespace Sys2Proof.Machine

/-- `PLPUSH` below the bound: the byte stands at its offset, `PLEN` counts it, the frame is gone. -/
theorem effPlPush_of_lt (b : Byte) {s : Block} (h : s.plen.toNat < Config.maxPayload) :
    effPlPush b s = leave { s with fb := s.fb.write (pushOffset s) b, plen := s.plen + 1#8, len := 0#8 } := by
  have ho : pushOffset s < Config.maxFrame := by
    simp only [pushOffset, Config.maxPayload, Config.maxFrame] at *; omega
  simp [effPlPush, h, fbWrite_of_lt ho]

/-- `PLPUSH` of the 250th byte: it is dropped and `PLEN` remembers it. -/
theorem effPlPush_of_eq (b : Byte) {s : Block} (h : s.plen.toNat = Config.maxPayload) :
    effPlPush b s = leave { s with plen := Config.plenSaturated, len := 0#8 } := by
  simp [effPlPush, h]

/-- `PLPUSH` of a later byte: dropped. -/
theorem effPlPush_of_gt (b : Byte) {s : Block} (h : Config.maxPayload < s.plen.toNat) :
    effPlPush b s = leave { s with len := 0#8 } := by
  have h1 : ¬ s.plen.toNat < Config.maxPayload := by omega
  have h2 : ¬ s.plen.toNat = Config.maxPayload := by omega
  simp [effPlPush, h1, h2]

/-- `PLPUSH` always goes on. -/
theorem effPlPush_next (b : Byte) (s : Block) : ∃ t, effPlPush b s = leave t := by
  rcases Nat.lt_trichotomy s.plen.toNat Config.maxPayload with h | h | h
  · exact ⟨_, effPlPush_of_lt b h⟩
  · exact ⟨_, effPlPush_of_eq b h⟩
  · exact ⟨_, effPlPush_of_gt b h⟩

/-- `RDFRB` outside the frame. -/
theorem effRdFrb_of_ge {s : Block} (h : s.len.toNat ≤ s.rp.toNat) :
    effRdFrb s = answer 0x00#8 s := by
  simp [effRdFrb, Nat.not_lt.2 h]

/-- `RDFRB` inside the frame, where the byte has been written. -/
theorem effRdFrb_of_lt {s : Block} {d : Byte} (h : s.rp.toNat < s.len.toNat)
    (hd : s.fb.read s.rp.toNat = some d) :
    effRdFrb s = answer d { s with rp := s.rp + 1#8 } := by
  have hm : s.rp.toNat < Config.maxFrame := by
    have := s.len.isLt; simp only [Config.maxFrame]; omega
  simp [effRdFrb, h, fbRead_of_lt hm, hd]

/-- `BUILD` beyond the bound raises FrameTooLarge. -/
theorem effBuild_of_gt (c : Byte) {s : Block} (h : Config.maxPayload < s.plen.toNat) :
    effBuild c s = leave (raiseFrameTooLarge s) := by
  simp [effBuild, h]

/-- A `BUILD` within the bound over a payload whose bytes are all there: the frame stands in `FB`, the registers
are as the rule says, and no offset but the header's four and the checksum's two is written. -/
theorem effBuild_of_le (c : Byte) {s : Block} {p : List Byte} (h : s.plen.toNat ≤ Config.maxPayload)
    (hp : fbLoad s.fb 4 s.plen.toNat = .ok p) :
    ∃ m : Memory,
      effBuild c s = leave { s with
        fb := m, crc := crc16 (frameHead c p), len := BitVec.ofNat 8 (buildLength s), rp := 0#8 } ∧
      fbLoad m 0 (buildLength s) = .ok (withChecksum (frameHead c p)) ∧
      (∀ a, 4 ≤ a → a ≠ s.plen.toNat + 4 → a ≠ s.plen.toNat + 5 → m.read a = s.fb.read a) ∧
      (s.fb.wf → m.wf) := by
  simp only [Config.maxPayload] at h
  have hn : buildLength s = s.plen.toNat + 6 := rfl
  have hlen : p.length = s.plen.toNat :=
    ((fbLoad_eq_ok (by simp only [Config.maxFrame]; omega)).1 hp).1
  obtain ⟨m, h1, h2, h3, h4⟩ := fbStore_spec (m := s.fb) (a := 0)
    (bs := [Config.sync, Config.addr, BitVec.ofNat 8 (buildLength s), c]) (by simp [Config.maxFrame])
  have hhead : fbLoad m 0 (buildLength s - 2) = .ok (frameHead c p) := by
    have hl1 := fbLoad_of_read (by simp [Config.maxFrame]) h2
    have hl2 : fbLoad m (0 + 4) s.plen.toNat = .ok p := by
      rw [← hp]
      exact fbLoad_congr fun i _ => h3 _ (by simp)
    have := fbLoad_append hl1 hl2
    rw [hn, show s.plen.toNat + 6 - 2 = [Config.sync, Config.addr, BitVec.ofNat 8 (buildLength s), c].length
      + s.plen.toNat by simp; omega, this]
    simp [frameHead, hlen, buildLength]
  obtain ⟨m', h5, h6, h7, h8⟩ := fbStore_spec (m := m) (a := buildLength s - 2)
    (bs := [crcLow (crc16 (frameHead c p)), crcHigh (crc16 (frameHead c p))])
    (by simp [Config.maxFrame, hn]; omega)
  refine ⟨m', ?_, ?_, ?_, fun hm => h8 (h4 hm)⟩
  · simp [effBuild, Config.maxPayload, Nat.not_lt.2 h, buildInPlace, h1, hhead, h5]
  · have hl1 : fbLoad m' 0 (buildLength s - 2) = .ok (frameHead c p) := by
      rw [← hhead]
      exact fbLoad_congr fun i hi => h7 _ (by omega)
    have hl2 := fbLoad_of_read (by simp [Config.maxFrame, hn]; omega) h6
    have := fbLoad_append hl1 (by simpa using hl2)
    rw [show buildLength s = buildLength s - 2 + 2 by omega]
    exact this
  · intro a ha1 ha2 ha3
    rw [h7 a (by simp [hn]; omega), h3 a (by simp; omega)]

/-- A `BUILD` that goes on either raised FrameTooLarge or built over a payload whose bytes are all there. -/
theorem effBuild_next {c : Byte} {s : Block} {r : Reply} (h : effBuild c s = .next r) :
    (Config.maxPayload < s.plen.toNat ∧ r = ⟨raiseFrameTooLarge s, []⟩) ∨
    (s.plen.toNat ≤ Config.maxPayload ∧ ∃ p, fbLoad s.fb 4 s.plen.toNat = .ok p) := by
  by_cases hp : Config.maxPayload < s.plen.toNat
  · rw [effBuild_of_gt c hp] at h
    exact .inl ⟨hp, leave_eq_next.1 h⟩
  · refine .inr ⟨by omega, ?_⟩
    have hb : s.plen.toNat ≤ 249 := by simp only [Config.maxPayload] at hp; omega
    obtain ⟨m, h1, h2, h3, -⟩ := fbStore_spec (m := s.fb) (a := 0)
      (bs := [Config.sync, Config.addr, BitVec.ofNat 8 (buildLength s), c]) (by simp [Config.maxFrame])
    cases hl : fbLoad m 0 (buildLength s - 2) with
    | error f => simp [effBuild, hp, buildInPlace, h1, hl] at h
    | ok hd =>
      have hn : buildLength s = s.plen.toNat + 6 := rfl
      obtain ⟨k1, k2⟩ := (fbLoad_eq_ok (by simp only [Config.maxFrame]; omega)).1 hl
      refine fbLoad_exists (by simp only [Config.maxFrame]; omega) fun i hi => ?_
      have := k2 (4 + i) (by omega)
      rw [Nat.zero_add, h3 _ (by simp)] at this
      rw [this]
      simp; omega

/-- The payload pushed after `PLCLR`: what fits stands in order from the next free offset, `PLEN` counts it and
saturates at 250, nothing else changes. -/
theorem pushAll_spec (p : List Byte) {s : Block} (h : s.plen.toNat ≤ 250) (hl : s.len = 0#8) :
    ∃ m : Memory,
      pushAll p s = leave { s with fb := m, plen := BitVec.ofNat 8 (min (s.plen.toNat + p.length) 250) } ∧
      (∀ i < p.length, s.plen.toNat + i < 249 → m.read (pushOffset s + i) = p[i]?) ∧
      (∀ a, ¬ (pushOffset s ≤ a ∧ a < 4 + min (s.plen.toNat + p.length) 249) → m.read a = s.fb.read a) ∧
      (s.fb.wf → m.wf) := by
  induction p generalizing s with
  | nil =>
    refine ⟨s.fb, ?_, by simp, by simp, id⟩
    have : BitVec.ofNat 8 (min (s.plen.toNat + 0) 250) = s.plen := by
      rw [Nat.add_zero, Nat.min_eq_left h]; simp
    simp only [pushAll, List.length_nil, this]
  | cons b p ih =>
    simp only [pushAll]
    rcases Nat.lt_trichotomy s.plen.toNat Config.maxPayload with hp | hp | hp
    · rw [effPlPush_of_lt b hp, andThen_leave]
      simp only [Config.maxPayload] at hp
      have hs : (s.plen + 1#8).toNat = s.plen.toNat + 1 := by
        rw [BitVec.toNat_add]; simp; omega
      obtain ⟨m, h1, h2, h3, h4⟩ := ih
        (s := { s with fb := s.fb.write (pushOffset s) b, plen := s.plen + 1#8, len := 0#8 })
        (by simp only [hs]; omega) rfl
      simp only [hs] at h1
      simp only [hs, pushOffset] at h2 h3
      refine ⟨m, ?_, ?_, ?_, fun hm => h4 (Memory.write_wf hm (by
        simp only [pushOffset, Config.maxFrame]; omega) b)⟩
      · rw [h1, List.length_cons, ← hl, Nat.add_assoc, Nat.add_comm 1]
      · intro i hi hb
        cases i with
        | zero =>
          rw [Nat.add_zero, h3 _ (by simp only [pushOffset]; omega)]
          simp [pushOffset]
        | succ i =>
          have := h2 i (by simpa using hi) (by omega)
          rw [show pushOffset s + (i + 1) = 4 + (s.plen.toNat + 1) + i by simp [pushOffset]; omega, this]
          simp
      · intro a ha
        simp only [List.length_cons, pushOffset] at ha
        rw [h3 a (by omega), Memory.read_write_ne]
        omega
    · rw [effPlPush_of_eq b hp, andThen_leave]
      simp only [Config.maxPayload] at hp
      obtain ⟨m, h1, h2, h3, h4⟩ := ih (s := { s with plen := Config.plenSaturated, len := 0#8 })
        (by simp [Config.plenSaturated]) rfl
      have h250 : (Config.plenSaturated).toNat = 250 := rfl
      simp only [h250, pushOffset] at h1 h2 h3
      refine ⟨m, ?_, ?_, ?_, h4⟩
      · rw [h1, List.length_cons, ← hl, Nat.min_eq_right (by omega), Nat.min_eq_right (by omega)]
      · intro i hi hb; omega
      · intro a ha; exact h3 a (by omega)
    · rw [effPlPush_of_gt b hp, andThen_leave]
      simp only [Config.maxPayload] at hp
      obtain ⟨m, h1, h2, h3, h4⟩ := ih (s := { s with len := 0#8 }) h rfl
      simp only [pushOffset] at h1 h2 h3
      refine ⟨m, ?_, ?_, ?_, h4⟩
      · rw [h1, List.length_cons, ← hl, Nat.min_eq_right (by omega), Nat.min_eq_right (by omega)]
      · intro i hi hb; omega
      · intro a ha; exact h3 a (by simp only [List.length_cons, pushOffset] at ha; omega)

/-- `n` reads inside the frame return its bytes in offset order and move `RP` on by `n`. -/
theorem readFrameBytes_spec {n : Nat} {s : Block} {f : List Byte} (h : s.rp.toNat + n ≤ s.len.toNat)
    (hf : fbLoad s.fb s.rp.toNat n = .ok f) :
    readFrameBytes n s =
      .next ⟨{ s with rp := BitVec.ofNat 8 (s.rp.toNat + n) }, f⟩ := by
  induction n generalizing s f with
  | zero =>
    cases hf
    simp [readFrameBytes, leave]
  | succ n ih =>
    have hlt := s.len.isLt
    have hm : s.rp.toNat + (n + 1) ≤ Config.maxFrame := by simp only [Config.maxFrame]; omega
    obtain ⟨k1, k2⟩ := (fbLoad_eq_ok hm).1 hf
    cases f with
    | nil => simp at k1
    | cons d f =>
      have h0 : s.fb.read s.rp.toNat = some d := by simpa using k2 0 (by omega)
      have hs : (s.rp + 1#8).toNat = s.rp.toNat + 1 := by
        rw [BitVec.toNat_add]; simp; omega
      have htail : fbLoad s.fb (s.rp.toNat + 1) n = .ok f := by
        refine (fbLoad_eq_ok (by omega)).2 ⟨by simpa using k1, fun i hi => ?_⟩
        have := k2 (i + 1) (by omega)
        rw [show s.rp.toNat + 1 + i = s.rp.toNat + (i + 1) by omega, this]
        simp
      have hrest := ih (s := { s with rp := s.rp + 1#8 }) (f := f) (by simp only [hs]; omega)
        (by simp only [hs]; exact htail)
      rw [readFrameBytes, effRdFrb_of_lt (by omega) h0, andThen_answer, hrest]
      simp only [Reply.after_next, hs, List.singleton_append, Nat.add_assoc, Nat.add_comm 1]

/-- The build part of a command, from any state, for a payload that fits. -/
theorem frameBuildPart_spec (c : Byte) {p : List Byte} (h : p.length ≤ Config.maxPayload) (s : Block) :
    ∃ m : Memory,
      frameBuildPart c p s = leave { s with
        fb := m, crc := crc16 (frameHead c p), plen := BitVec.ofNat 8 p.length,
        len := BitVec.ofNat 8 (p.length + Config.overhead), rp := 0#8, toolarge := false } ∧
      fbLoad m 0 (p.length + Config.overhead) = .ok (withChecksum (frameHead c p)) ∧
      (∀ a, p.length + Config.overhead ≤ a → m.read a = s.fb.read a) ∧
      (s.fb.wf → m.wf) := by
  simp only [Config.maxPayload] at h
  obtain ⟨m, h1, h2, h3, h4⟩ := pushAll_spec p (s := (clearPayload s)) (by simp) rfl
  have hz : (0#8).toNat = 0 := rfl
  simp only [clearPayload_plen, hz, Nat.zero_add, pushOffset,
    Nat.min_eq_left (show p.length ≤ 250 by omega), Nat.min_eq_left h, Nat.add_zero] at h1 h2 h3
  have hpl : (BitVec.ofNat 8 p.length).toNat = p.length := by simp; omega
  obtain ⟨m', k1, k2, k3, k4⟩ := effBuild_of_le c
    (s := { (clearPayload s) with fb := m, plen := BitVec.ofNat 8 p.length }) (p := p)
    (by simp only [hpl, Config.maxPayload]; omega)
    (by
      simp only [hpl]
      exact fbLoad_of_read (by simp only [Config.maxFrame]; omega) fun i hi => h2 i hi (by omega))
  simp only [buildLength, hpl] at k1 k2 k3
  refine ⟨m', ?_, k2, ?_, fun hm => k4 (h4 hm)⟩
  · simp only [frameBuildPart, effPlClr, andThen_leave, h1, k1]
    rfl
  · intro a ha
    simp only [Config.overhead] at ha
    rw [k3 a (by omega) (by omega) (by omega), h3 a (by omega)]
    rfl

end Sys2Proof.Machine
end

