-- ==== Sys2Proof/Laws/PerInstr.lean ====
section
/-! SUPPORT. Statements about every instruction as syntax, one lemma per constructor. -/

namespace Sys2Proof.Laws.EncodesWellFormed

/-- The instruction's encoding is a well-formed code: an operation word, or the frame of a listed command
(`30_encoding.md` R66 to R71). -/
def Statement (i : Instr) : Prop := (encode i).wf = true

/-- A frame made by putting the checksum behind its other bytes passes the checksum check. -/
theorem checksumOk_withChecksum (h : List Byte) : Frame.checksumOk (Machine.withChecksum h) = true := by
  simp [Frame.checksumOk, Machine.withChecksum]

theorem crcInit : Statement .crcInit := rfl
theorem crcUpd (b : Byte) : Statement (.crcUpd b) := rfl
theorem rdCrcL : Statement .rdCrcL := rfl
theorem rdCrcH : Statement .rdCrcH := rfl
theorem plClr : Statement .plClr := rfl
theorem plPush (b : Byte) : Statement (.plPush b) := rfl
theorem rdPlen : Statement .rdPlen := rfl
theorem build (c : Byte) : Statement (.build c) := rfl
theorem rdLen : Statement .rdLen := rfl
theorem rdPtr : Statement .rdPtr := rfl
theorem wrPtr (p : Byte) : Statement (.wrPtr p) := rfl
theorem rdFrb : Statement .rdFrb := rfl
theorem rdStat : Statement .rdStat := rfl
theorem cReset : Statement .cReset := by unfold Statement; decide +kernel
theorem cStatus : Statement .cStatus := by unfold Statement; decide +kernel
theorem cSecurity (m : Byte) : Statement (.cSecurity m) := by
  simp only [Statement, encode, Code.wf, Frame.wf, checksumOk_withChecksum]
  simp [Frame.lengthOk, Frame.syncOk, Frame.addrOk, Frame.lengthByteOk, Frame.listedOk, Machine.withChecksum,
    Machine.securityPayload, Config.sync, Config.addr, Config.overhead, Config.maxFrame]
theorem cPoll : Statement .cPoll := by unfold Statement; decide +kernel
theorem cEnable (m : Byte) : Statement (.cEnable m) := by
  simp only [Statement, encode, Code.wf, Frame.wf, checksumOk_withChecksum]
  simp [Frame.lengthOk, Frame.syncOk, Frame.addrOk, Frame.lengthByteOk, Frame.listedOk, Machine.withChecksum,
    Machine.enablePayload, Config.sync, Config.addr, Config.overhead, Config.maxFrame]
theorem cStack : Statement .cStack := by unfold Statement; decide +kernel
theorem cReturn : Statement .cReturn := by unfold Statement; decide +kernel
theorem cIdent : Statement .cIdent := by unfold Statement; decide +kernel
theorem cAck : Statement .cAck := by unfold Statement; decide +kernel
theorem cNsc : Statement .cNsc := by unfold Statement; decide +kernel

end Sys2Proof.Laws.EncodesWellFormed
end

