-- ==== Sys2Proof/Laws/Step.lean ====
section
/-! SUPPORT. The host interface's step is the block's step fed from the port, and a run of given events is the block's run
under them, so that a claim about a run is a claim about the block alone. -/

namespace Sys2Proof.Machine

/-- Each meaning is its instruction's effect on the block, at the port. -/
theorem exec_eq_onPort (i : Instr) (s : State) : exec i s = onPort (effectOf i) s := by
  cases i <;> rfl

theorem runDecoded_eq_onPort (d : Decoded) (s : State) : runDecoded d s = onPort (effectOfDecoded d) s := by
  cases d with
  | instr i => exact exec_eq_onPort i s
  | reservedRead a => rfl
  | reservedWrite a b => rfl

/-- A step with an event pending: the block's step under that event, at the port with the event taken off. -/
theorem step_cons {s : State} {e : HostEvent} {rest : List HostEvent} (h : s.pending = e :: rest) :
    step s = onPort (blockStep e) { s with pending := rest } := by
  unfold step
  rw [h]
  cases e with
  | reset => rfl
  | present c =>
    simp only
    cases hd : decode c with
    | error r => exact (onPort_of_refused (by simp [blockStep, hd])).symm
    | ok d =>
      simp only [runDecoded_eq_onPort]
      simp only [onPort, blockStep, hd]

theorem step_nil {s : State} (h : s.pending = []) : step s = .next s := by
  unfold step
  rw [h]
  rfl

/-- A word's step is the effect of what it decodes to. -/
theorem blockStep_word (w : OpWord) (b : Block) : blockStep (wordEvent w) b = effectOfDecoded (decodeWord w) b := rfl

@[simp] theorem blockRun_nil (b : Block) : blockRun [] b = leave b := rfl
@[simp] theorem blockRun_cons (e : HostEvent) (es : List HostEvent) (b : Block) :
    blockRun (e :: es) b = andThen (blockStep e b) (blockRun es) := rfl

theorem blockRun_append (es es' : List HostEvent) (b : Block) :
    blockRun (es ++ es') b = andThen (blockRun es b) (blockRun es') := by
  induction es generalizing b with
  | nil => simp
  | cons e es ih =>
    rw [List.cons_append, blockRun_cons, blockRun_cons, andThen_assoc]
    congr 1
    funext b'
    exact ih b'

/-- One step of a run, by what the step answers. -/
theorem run_of_next {n : Nat} {s t : State} (h : step s = .next t) :
    (Host.Core.run Sys2Proof.core (n + 1) s : Out) = Host.Core.run Sys2Proof.core n t := by
  have h' : Sys2Proof.core.step s = .next t := h
  simp only [Host.Core.run, h']

theorem run_of_fault {n : Nat} {s : State} {r : Fault} (h : step s = .fault r) :
    (Host.Core.run Sys2Proof.core (n + 1) s : Out) = .fault r := by
  have h' : Sys2Proof.core.step s = .fault r := h
  simp only [Host.Core.run, h']

theorem run_of_refused {n : Nat} {s : State} {r : Refusal} (h : step s = .refused r) :
    (Host.Core.run Sys2Proof.core (n + 1) s : Out) = .refused r := by
  have h' : Sys2Proof.core.step s = .refused r := h
  simp only [Host.Core.run, h']

/-- A run of the machine over given events is the block's run under them, at the port. -/
theorem run_given (es : List HostEvent) (s : State) :
    (Host.Core.run Sys2Proof.core es.length (s.given es) : Out) = onPort (blockRun es) s := by
  induction es generalizing s with
  | nil => exact (onPort_of_leave (b := s.toBlock) rfl).symm
  | cons e es ih =>
    have hs : step (s.given (e :: es)) = onPort (blockStep e) (s.given es) :=
      step_cons (s := s.given (e :: es)) rfl
    cases hb : blockStep e s.toBlock with
    | fault r =>
      refine (run_of_fault (hs.trans (onPort_of_fault (s := s.given es) hb))).trans ?_
      exact (onPort_of_fault (by rw [blockRun_cons, hb]; rfl)).symm
    | refused r =>
      refine (run_of_refused (hs.trans (onPort_of_refused (s := s.given es) hb))).trans ?_
      exact (onPort_of_refused (by rw [blockRun_cons, hb]; rfl)).symm
    | next r =>
      refine (run_of_next (hs.trans (onPort_of_next (s := s.given es) hb))).trans ((ih (s.take r)).trans ?_)
      cases hr : blockRun es r.block with
      | next r' =>
        rw [onPort_of_next (s := s.take r) hr, onPort_of_next (s := s) (r := ⟨r'.block, r.bytes ++ r'.bytes⟩)
          (by rw [blockRun_cons, hb, andThen_next, hr]; rfl), State.take_take]
      | fault f =>
        rw [onPort_of_fault (s := s.take r) hr,
          onPort_of_fault (s := s) (by rw [blockRun_cons, hb, andThen_next, hr]; rfl)]
      | refused f =>
        rw [onPort_of_refused (s := s.take r) hr,
          onPort_of_refused (s := s) (by rw [blockRun_cons, hb, andThen_next, hr]; rfl)]

/-- A run of words is the block's run under them, at the port. -/
theorem runWords_eq_onPort (ws : List OpWord) (s : State) :
    runWords ws s = onPort (blockRun (ws.map wordEvent)) s := by
  have := run_given (ws.map wordEvent) s
  rwa [List.length_map] at this

end Sys2Proof.Machine
end

