-- ==== Sys2Proof/Tests/Slice0.lean ====
section
/-! SUPPORT. Tests: each expected value is taken from spec/ (the file is named beside it), none from the model. Then the
witnesses that the statements' hypotheses can be met, at the boundaries of their clauses. -/

namespace Sys2Proof.Tests

open Sys2Proof Sys2Proof.Machine

set_option Elab.async false

/-- A small state: the registers given, and an `FB` given as cells. -/
def st (crc : Crc) (plen len rp : Byte) (toolarge : Bool) (fb : Memory) : State :=
  { State.reset with crc := crc, plen := plen, len := len, rp := rp, toolarge := toolarge, fb := fb }

/-- The state, if an outcome has one. -/
def after (o : Out) : Option State :=
  match o with
  | .next s => some s
  | .fault _ => none
  | .refused _ => none

/-- `k` payload bytes, each 0xAA, in their places. -/
def payloadAA (k : Nat) : Memory := (List.range k).map fun i => (4 + i, 0xAA#8)

theorem payloadAA_wf {k : Nat} (h : k ≤ 249) : (payloadAA k).wf := by
  refine ⟨List.pairwise_map.2 (List.Pairwise.imp (fun h => by simpa using h) List.pairwise_lt_range), ?_⟩
  intro x hx
  obtain ⟨i, hi, rfl⟩ := List.mem_map.1 hx
  have := List.mem_range.1 hi
  simp only [Config.maxFrame]
  omega

theorem read_map_offset (is : List Nat) (j : Nat) :
    Memory.read (is.map fun i => (4 + i, 0xAA#8)) (4 + j) = if j ∈ is then some 0xAA#8 else none := by
  induction is with
  | nil => simp
  | cons i is ih =>
    simp only [List.map_cons, Memory.read, ih, List.mem_cons]
    by_cases h : i = j
    · simp [h]
    · have : ¬ 4 + i = 4 + j := by omega
      simp [h, Ne.symm h]

theorem payloadAA_read (k j : Nat) : (payloadAA k).read (4 + j) = if j < k then some 0xAA#8 else none := by
  simp [payloadAA, read_map_offset]

theorem payloadAA_load {k : Nat} (h : k ≤ 249) : fbLoad (payloadAA k) 4 k = .ok (List.replicate k 0xAA#8) := by
  refine (fbLoad_eq_ok (by simp only [Config.maxFrame]; omega)).2 ⟨by simp, fun i hi => ?_⟩
  simp [payloadAA_read, hi]

/-- The Reset frame in its place (`42_ccnet_commands.md` R122). -/
def resetFrame : Memory := [(0, 0x02#8), (1, 0x03#8), (2, 0x06#8), (3, 0x30#8), (4, 0x41#8), (5, 0xB3#8)]

/-! ## Well-formedness: one ill-formed frame for each check, refused by it and by the decoder -/

theorem test_wf_length : Frame.lengthOk [0x02#8, 0x03#8, 0x05#8, 0x30#8, 0x41#8] = false := by decide
theorem test_wf_sync : Frame.syncOk [0x03#8, 0x03#8, 0x06#8, 0x30#8, 0x41#8, 0xB3#8] = false := by decide
theorem test_wf_addr : Frame.addrOk [0x02#8, 0x02#8, 0x06#8, 0x30#8, 0x41#8, 0xB3#8] = false := by decide
theorem test_wf_lengthByte :
    Frame.lengthByteOk [0x02#8, 0x03#8, 0x07#8, 0x30#8, 0x41#8, 0xB3#8] = false := by decide
theorem test_wf_checksum :
    Frame.checksumOk [0x02#8, 0x03#8, 0x06#8, 0x30#8, 0xB3#8, 0x41#8] = false := by decide +kernel
/-- The frame of V7 for code 0x31 with payload AB: a frame, but no command's. -/
theorem test_wf_listed :
    Frame.wf [0x02#8, 0x03#8, 0x07#8, 0x31#8, 0xAB#8, 0xE3#8, 0x0B#8] = true ∧
    Code.wf (.frame [0x02#8, 0x03#8, 0x07#8, 0x31#8, 0xAB#8, 0xE3#8, 0x0B#8]) = false := by decide +kernel
theorem test_wf_resetFrame : Code.wf (.frame [0x02#8, 0x03#8, 0x06#8, 0x30#8, 0x41#8, 0xB3#8]) = true := by
  decide +kernel

/-- The decoder's own error for a frame, if it refuses it. -/
def rejected (f : List Byte) : Option Reject :=
  match decodeFrame f with
  | .ok _ => none
  | .error r => some r

theorem test_reject_short : rejected [0x02#8, 0x03#8, 0x05#8, 0x30#8, 0x41#8] = some .tooShort := by decide
theorem test_reject_sync :
    rejected [0x03#8, 0x03#8, 0x06#8, 0x30#8, 0x41#8, 0xB3#8] = some .badSync := by decide
theorem test_reject_address :
    rejected [0x02#8, 0x02#8, 0x06#8, 0x30#8, 0x41#8, 0xB3#8] = some .badAddress := by decide
theorem test_reject_length :
    rejected [0x02#8, 0x03#8, 0x07#8, 0x30#8, 0x41#8, 0xB3#8] = some .badLength := by decide
theorem test_reject_checksum :
    rejected [0x02#8, 0x03#8, 0x06#8, 0x30#8, 0xB3#8, 0x41#8] = some .badChecksum := by decide +kernel
/-- V7: a frame of code 0x02, outside the ten (`30_encoding.md` R72). -/
theorem test_reject_code :
    rejected [0x02#8, 0x03#8, 0x0A#8, 0x02#8, 0x02#8, 0x03#8, 0x02#8, 0x03#8, 0xBE#8, 0x4B#8]
      = some (.unlistedCode 0x02#8) := by decide +kernel
theorem test_reject_payload :
    rejected [0x02#8, 0x03#8, 0x07#8, 0x31#8, 0xAB#8, 0xE3#8, 0x0B#8] = some (.payloadShape 0x31#8) := by
  decide +kernel

/-! ## Decoding: words and frames written out from `30_encoding.md` R62, R65 and `42_ccnet_commands.md` -/

/-- `W` `A` `D` written bit by bit. -/
theorem test_decode_engine :
    decodeWord 0b1_0000_01011010#13 = .instr .crcInit ∧
    decodeWord 0b1_0001_00000010#13 = .instr (.crcUpd 0x02#8) ∧
    decodeWord 0b0_0010_01110111#13 = .instr .rdCrcL ∧
    decodeWord 0b0_0011_00000000#13 = .instr .rdCrcH := by decide
theorem test_decode_assembler_writes :
    decodeWord 0b1_0100_00000000#13 = .instr .plClr ∧
    decodeWord 0b1_0101_01111100#13 = .instr (.plPush 0x7C#8) ∧
    decodeWord 0b1_0111_00110100#13 = .instr (.build 0x34#8) ∧
    decodeWord 0b1_1001_11111111#13 = .instr (.wrPtr 0xFF#8) := by decide
theorem test_decode_assembler_reads :
    decodeWord 0b0_0110_00000000#13 = .instr .rdPlen ∧
    decodeWord 0b0_1000_00000000#13 = .instr .rdLen ∧
    decodeWord 0b0_1001_00000000#13 = .instr .rdPtr ∧
    decodeWord 0b0_1010_00000000#13 = .instr .rdFrb ∧
    decodeWord 0b0_1011_00000000#13 = .instr .rdStat := by decide
/-- V10. -/
theorem test_decode_reserved :
    decodeWord 0x12FF#13 = .reservedWrite 0x2#4 0xFF#8 ∧ decodeWord 0x1F00#13 = .reservedWrite 0xF#4 0x00#8 ∧
    decodeWord 0x0700#13 = .reservedRead 0x7#4 ∧ decodeWord 0x0FFF#13 = .reservedRead 0xF#4 := by decide

/-- The instruction a frame decodes to, if it does. -/
def frameInstr (f : List Byte) : Option Instr :=
  match decodeFrame f with
  | .ok i => some i
  | .error _ => none

/-- V8, the summary table of `42_ccnet_commands.md`. -/
theorem test_decode_plain_frames :
    frameInstr [0x02#8, 0x03#8, 0x06#8, 0x30#8, 0x41#8, 0xB3#8] = some .cReset ∧
    frameInstr [0x02#8, 0x03#8, 0x06#8, 0x31#8, 0xC8#8, 0xA2#8] = some .cStatus ∧
    frameInstr [0x02#8, 0x03#8, 0x06#8, 0x33#8, 0xDA#8, 0x81#8] = some .cPoll ∧
    frameInstr [0x02#8, 0x03#8, 0x06#8, 0x35#8, 0xEC#8, 0xE4#8] = some .cStack ∧
    frameInstr [0x02#8, 0x03#8, 0x06#8, 0x36#8, 0x77#8, 0xD6#8] = some .cReturn ∧
    frameInstr [0x02#8, 0x03#8, 0x06#8, 0x37#8, 0xFE#8, 0xC7#8] = some .cIdent ∧
    frameInstr [0x02#8, 0x03#8, 0x06#8, 0x00#8, 0xC2#8, 0x82#8] = some .cAck ∧
    frameInstr [0x02#8, 0x03#8, 0x06#8, 0xFF#8, 0xBA#8, 0x8D#8] = some .cNsc := by decide +kernel
/-- V8, masks 0x7C and 0xFF. -/
theorem test_decode_mask_frames :
    frameInstr [0x02#8, 0x03#8, 0x09#8, 0x32#8, 0x00#8, 0x00#8, 0x7C#8, 0xCD#8, 0xA6#8] = some (.cSecurity 0x7C#8) ∧
    frameInstr [0x02#8, 0x03#8, 0x0C#8, 0x34#8, 0x00#8, 0x00#8, 0xFF#8, 0x00#8, 0x00#8, 0x00#8, 0xC5#8, 0xC9#8]
      = some (.cEnable 0xFF#8) := by decide +kernel
/-- V8, the encoder for the two commands whose checksum it computes, masks 0x3F and 0x80. -/
theorem test_encode_mask_frames :
    encode (.cSecurity 0x3F#8) = .frame [0x02#8, 0x03#8, 0x09#8, 0x32#8, 0x00#8, 0x00#8, 0x3F#8, 0x52#8, 0xD6#8] ∧
    encode (.cEnable 0x80#8) = .frame
      [0x02#8, 0x03#8, 0x0C#8, 0x34#8, 0x00#8, 0x00#8, 0x80#8, 0x00#8, 0x00#8, 0x00#8, 0x79#8, 0x21#8] := by
  decide +kernel
/-- The table's numbering: a word of 13 bits in 16, the Reset frame with its first byte lowest, and a number that is
no word. -/
theorem test_decodeTableWord :
    decodeTableWord 16 0x1730 = some (.build 0x30#8) ∧ decodeTableWord 48 0xB34130060302 = some .cReset ∧
    decodeTableWord 16 0x3730 = none ∧ decodeTableWord 16 0x0500 = none := by decide +kernel

/-! ## The two functions: V2, V3, V5, V7 -/

theorem test_crcBit : crcBit 0x7FFF#16 = 0xBBF7#16 ∧ crcBit 0x8000#16 = 0x4000#16 := by decide
theorem test_crcByte : crcByte 0x1234#16 0x56#8 = 0x4006#16 ∧ crcByte 0x0000#16 0x80#8 = 0x8408#16 := by decide +kernel
theorem test_crc16_check :
    crc16 [0x31#8, 0x32#8, 0x33#8, 0x34#8, 0x35#8, 0x36#8, 0x37#8, 0x38#8, 0x39#8] = 0x2189#16 := by decide +kernel
theorem test_buildFrame_verbatim :
    buildFrame 0x02#8 [0x02#8, 0x03#8, 0x02#8, 0x03#8] =
      some [0x02#8, 0x03#8, 0x0A#8, 0x02#8, 0x02#8, 0x03#8, 0x02#8, 0x03#8, 0xBE#8, 0x4B#8] := by decide +kernel
/-- 249 payload bytes make a frame of 255; 250 make none. -/
theorem test_buildFrame_bounds :
    (buildFrame 0x30#8 (List.replicate 249 0x00#8)).map List.length = some 255 ∧
    buildFrame 0x30#8 (List.replicate 250 0x00#8) = none := by
  constructor
  · rw [buildFrame_of_le (p := List.replicate 249 0x00#8) (Nat.le_of_eq List.length_replicate)]
    simp only [Option.map_some, withChecksum_length, frameHead_length, List.length_replicate]
  · exact buildFrame_of_gt (List.length_replicate ▸ Nat.lt_succ_self 249)

/-! ## The operations: V6, V9, V10, one step each -/

theorem test_crcInit : (after (exec .crcInit (st 0xB341#16 0 0 0 false []))).map (·.crc) = some 0x0000#16 := by decide
theorem test_crcUpd :
    (after (exec (.crcUpd 0x30#8) (st 0xFAE6#16 0 0 0 false []))).map (·.crc) = some 0xB341#16 := by decide +kernel
theorem test_rdCrcL :
    (after (exec .rdCrcL (st 0xB341#16 0 0 0 false []))).map (·.returned) = some [0x41#8] := by decide
theorem test_rdCrcH :
    (after (exec .rdCrcH (st 0xB341#16 0 0 0 false []))).map (·.returned) = some [0xB3#8] := by decide
theorem test_plClr :
    (after (exec .plClr (st 0 250#8 0 7#8 true []))).map (fun t => (t.plen, t.len, t.rp, t.toolarge)) =
      some (0#8, 0#8, 7#8, false) := by decide
theorem test_plPush_last :
    (after (exec (.plPush 0xAA#8) (st 0 248#8 254#8 0 false []))).map (fun t => (t.plen, t.len, t.fb)) =
      some (249#8, 0#8, [(252, 0xAA#8)]) := by decide
theorem test_plPush_dropped :
    (after (exec (.plPush 0xBB#8) (st 0 249#8 255#8 0 false []))).map (fun t => (t.plen, t.len, t.fb)) =
      some (250#8, 0#8, []) := by decide
theorem test_rdPlen :
    (after (exec .rdPlen (st 0 250#8 0 0 false []))).map (·.returned) = some [0xFA#8] := by decide
theorem test_build_source_example :
    (after (exec (.build 0x34#8) (st 0x1234#16 6#8 0 9#8 false
      [(4, 0x00#8), (5, 0x00#8), (6, 0x7C#8), (7, 0x00#8), (8, 0x00#8), (9, 0x00#8)]))).map
        (fun t => (t.fb.map (·.2), t.crc, t.len, t.rp, t.plen)) =
      some ([0x02#8, 0x03#8, 0x0C#8, 0x34#8, 0x00#8, 0x00#8, 0x7C#8, 0x00#8, 0x00#8, 0x00#8, 0x66#8, 0xC1#8],
        0xC166#16, 12#8, 0#8, 6#8) := by decide +kernel
theorem test_build_tooLarge :
    after (exec (.build 0x33#8) (st 0x1234#16 250#8 0 9#8 false [(4, 0xAA#8)])) =
      some (st 0x1234#16 250#8 0 0 true [(4, 0xAA#8)]) := by decide
theorem test_rdLen : (after (exec .rdLen (st 0 6#8 12#8 0 false []))).map (·.returned) = some [0x0C#8] := by decide
theorem test_rdPtr : (after (exec .rdPtr (st 0 0 0 5#8 false []))).map (·.returned) = some [0x05#8] := by decide
theorem test_wrPtr :
    (after (exec (.wrPtr 0xFF#8) (st 0 0 6#8 0 false resetFrame))).map (·.rp) = some 255#8 := by decide
theorem test_rdFrb_top :
    (after (exec .rdFrb (st 0 249#8 255#8 254#8 false [(254, 0xE3#8)]))).map (fun t => (t.returned, t.rp)) =
      some ([0xE3#8], 255#8) := by decide
theorem test_rdFrb_past :
    (after (exec .rdFrb (st 0 0 6#8 6#8 false resetFrame))).map (fun t => (t.returned, t.rp)) =
      some ([0x00#8], 6#8) := by decide
theorem test_rdStat :
    (after (exec .rdStat (st 0 250#8 0 0 true []))).map (fun t => (t.returned, t.toolarge)) =
      some ([0x06#8], true) := by decide
theorem test_reserved_read :
    after (step { st 0xB341#16 0 6#8 0 false resetFrame with pending := [wordEvent 0x0500#13] }) =
      some { st 0xB341#16 0 6#8 0 false resetFrame with returned := [0x00#8] } := by decide
theorem test_reserved_write :
    after (step { st 0xB341#16 0 6#8 0 false resetFrame with pending := [wordEvent 0x1AFF#13] }) =
      some (st 0xB341#16 0 6#8 0 false resetFrame) := by decide
theorem test_reset :
    after (step { st 0xB341#16 0 6#8 3#8 true resetFrame with pending := [.reset] }) = some State.reset := by decide

/-! ## The commands: their frames (V8) after `STATUS` 0x01 and `LEN`, and their checksums -/

/-- What a command returns, and the `CRC` and `RP` it leaves. -/
def commandResult (i : Instr) : Option (List Byte × Crc × Byte) :=
  (after (exec i State.reset)).map fun t => (t.returned, t.crc, t.rp)

theorem test_cReset : commandResult .cReset =
    some ([0x01#8, 0x06#8, 0x02#8, 0x03#8, 0x06#8, 0x30#8, 0x41#8, 0xB3#8], 0xB341#16, 6#8) := by decide +kernel
theorem test_cStatus : commandResult .cStatus =
    some ([0x01#8, 0x06#8, 0x02#8, 0x03#8, 0x06#8, 0x31#8, 0xC8#8, 0xA2#8], 0xA2C8#16, 6#8) := by decide +kernel
theorem test_cSecurity : commandResult (.cSecurity 0x80#8) =
    some ([0x01#8, 0x09#8, 0x02#8, 0x03#8, 0x09#8, 0x32#8, 0x00#8, 0x00#8, 0x80#8, 0x2E#8, 0x9B#8], 0x9B2E#16, 9#8) := by
  decide +kernel
theorem test_cPoll : commandResult .cPoll =
    some ([0x01#8, 0x06#8, 0x02#8, 0x03#8, 0x06#8, 0x33#8, 0xDA#8, 0x81#8], 0x81DA#16, 6#8) := by decide +kernel
theorem test_cEnable : commandResult (.cEnable 0x01#8) =
    some ([0x01#8, 0x0C#8, 0x02#8, 0x03#8, 0x0C#8, 0x34#8, 0x00#8, 0x00#8, 0x01#8, 0x00#8, 0x00#8, 0x00#8, 0xAC#8,
      0x10#8], 0x10AC#16, 12#8) := by decide +kernel
theorem test_cStack : commandResult .cStack =
    some ([0x01#8, 0x06#8, 0x02#8, 0x03#8, 0x06#8, 0x35#8, 0xEC#8, 0xE4#8], 0xE4EC#16, 6#8) := by decide +kernel
theorem test_cReturn : commandResult .cReturn =
    some ([0x01#8, 0x06#8, 0x02#8, 0x03#8, 0x06#8, 0x36#8, 0x77#8, 0xD6#8], 0xD677#16, 6#8) := by decide +kernel
theorem test_cIdent : commandResult .cIdent =
    some ([0x01#8, 0x06#8, 0x02#8, 0x03#8, 0x06#8, 0x37#8, 0xFE#8, 0xC7#8], 0xC7FE#16, 6#8) := by decide +kernel
theorem test_cAck : commandResult .cAck =
    some ([0x01#8, 0x06#8, 0x02#8, 0x03#8, 0x06#8, 0x00#8, 0xC2#8, 0x82#8], 0x82C2#16, 6#8) := by decide +kernel
theorem test_cNsc : commandResult .cNsc =
    some ([0x01#8, 0x06#8, 0x02#8, 0x03#8, 0x06#8, 0xFF#8, 0xBA#8, 0x8D#8], 0x8DBA#16, 6#8) := by decide +kernel

/-- The expansion of `C.ENABLE m` in `42_ccnet_commands.md` R126, with its readout. -/
theorem test_commandWords :
    commandWords 0x34#8 (enablePayload 0x7C#8) =
      [0x1400#13, 0x1500#13, 0x1500#13, 0x157C#13, 0x1500#13, 0x1500#13, 0x1500#13, 0x1734#13, 0x0B00#13, 0x0800#13]
        ++ List.replicate 12 0x0A00#13 := by decide
/-- `CRC16 [0x02, 0x03]` (R91). -/
theorem test_crc16Words :
    crc16Words [0x02#8, 0x03#8] = [0x1000#13, 0x1102#13, 0x1103#13, 0x0200#13, 0x0300#13] := by decide
/-- The syntax of `30_encoding.md` R73. -/
theorem test_assembly :
    assembly (.plPush 0x7C#8) = "PLPUSH 0x7C" ∧ assembly .plClr = "PLCLR" ∧
    assemblyRead .rdFrb 0xB3#8 = "RDFRB -> 0xB3" ∧ assembly (.cEnable 0x0A#8) = "C.ENABLE 0x0A" := by decide

/-- What the host asks: the step runs the fetched instruction right after reset. -/
theorem test_withFetchWord :
    after (step (State.reset.withFetchWord 16 0x1102)) = after (exec (.crcUpd 0x02#8) State.reset) ∧
    after (step (State.reset.withFetchWord 48 0xB34130060302)) = after (exec .cReset State.reset) := by decide +kernel

/-! ## Witnesses: states and operands that meet the statements' hypotheses, clause by clause at their boundaries -/

theorem reset_invariants : Invariants Block.reset where
  plenBound := by decide
  lenRange := .inl rfl
  lenOfPlen := fun h => absurd rfl h
  frameStands := fun h => absurd rfl h
  tooLargeState := fun h => Bool.noConfusion h
  frameWritten := by decide
  fbCanonical := by decide
  payloadWritten := by decide

/-- The state after `BUILD 0x30` from reset, with a program pending: the invariants hold with a frame standing. -/
def built (evs : List HostEvent) : State := { st 0xB341#16 0 6#8 0 false resetFrame with pending := evs }

theorem built_invariants (evs : List HostEvent) : Invariants (built evs).toBlock where
  plenBound := by simp [built, st]
  lenRange := .inr (Nat.le_refl 6)
  lenOfPlen := fun _ => ⟨Nat.zero_le _, rfl⟩
  frameStands := fun _ => ⟨rfl, rfl, rfl, [0x02#8, 0x03#8, 0x06#8, 0x30#8], rfl,
    (by decide +kernel : resetFrame.read 4 = some (crcLow (crc16 [0x02#8, 0x03#8, 0x06#8, 0x30#8]))),
    (by decide +kernel : resetFrame.read 5 = some (crcHigh (crc16 [0x02#8, 0x03#8, 0x06#8, 0x30#8])))⟩
  tooLargeState := fun h => Bool.noConfusion h
  frameWritten := (by decide : ∀ a < 6, (resetFrame.read a).isSome)
  fbCanonical := (by decide : resetFrame.wf)
  payloadWritten := fun _ h => absurd h (by simp [built, st])

/-- A state with the payload overflowed, before or after a failed `BUILD` (program P4). -/
def overflowed (raised : Bool) (evs : List HostEvent) : State :=
  { st 0 250#8 0 0 raised (payloadAA 249) with pending := evs }

theorem overflowed_invariants (raised : Bool) (evs : List HostEvent) : Invariants (overflowed raised evs).toBlock where
  plenBound := by simp [overflowed, st]
  lenRange := .inl rfl
  lenOfPlen := fun h => absurd rfl h
  frameStands := fun h => absurd rfl h
  tooLargeState := fun _ => ⟨rfl, rfl⟩
  frameWritten := fun a h => absurd h (Nat.not_lt_zero a)
  fbCanonical := payloadAA_wf (Nat.le_refl 249)
  payloadWritten := fun k hk => by
    have hk : k < 249 := hk
    have : (payloadAA 249).read (4 + k) = some 0xAA#8 := by simp [payloadAA_read, hk]
    exact this ▸ rfl

theorem witness_word_decodes : decodeWord 0x1377#13 = .reservedWrite 0x3#4 0x77#8 ∧
    decodeWord 0x10FF#13 = .instr .crcInit ∧ asmOperand .crcInit = none ∧
    decodeWord 0x19FF#13 = .instr (.wrPtr 0xFF#8) ∧ asmOperand (.wrPtr 0xFF#8) ≠ none := by decide
theorem witness_register_map :
    opIsWrite 0x1200#13 = true ∧ Reg.ofAddr (opAddr 0x1200#13) = some .crcLo ∧ Reg.access .crcLo = .ro ∧
    opIsWrite 0x0C00#13 = false ∧ Reg.ofAddr (opAddr 0x0C00#13) = none := by decide
theorem witness_command : commandOf (.cSecurity 0xFF#8) = some (0x32#8, [0x00#8, 0x00#8, 0xFF#8]) := by decide
theorem witness_linear_lengths : [0x01#8, 0xFF#8].length = [0x80#8, 0x02#8].length := by decide
theorem witness_buildFrame_lengths :
    (List.replicate 249 0x00#8).length ≤ 249 ∧ 249 < (List.replicate 250 0x00#8).length := by
  rw [List.length_replicate, List.length_replicate]
  decide
theorem witness_buildFrame_pairs :
    (buildFrame 0x30#8 [0x01#8]).isSome ∧ (buildFrame 0x31#8 [0x01#8]).isSome ∧ (0x30#8 : Byte) ≠ 0x31#8 := by
  decide +kernel
/-- The words of a transaction with others put in (R91), both ways to start it, and a read, a `PLPUSH` and a reserved
access between its two reads. -/
theorem witness_checksum_interleaved :
    (∀ w ∈ [0x1131#13, 0x1400#13, 0x0200#13, 0x1132#13],
      decodeWord w ≠ .instr .crcInit ∧ ∀ c, decodeWord w ≠ .instr (.build c)) ∧
    (∀ w ∈ [0x0B00#13, 0x15AA#13, 0x1F00#13], ¬ isCrcWord w ∧ ∀ c, decodeWord w ≠ .instr (.build c)) ∧
    (after (runWords ([0x1000#13] ++ [0x1131#13, 0x1400#13, 0x0200#13, 0x1132#13]) State.reset)).isSome ∧
    (after (runWords ([] ++ [0x1131#13, 0x1400#13, 0x0200#13, 0x1132#13]) State.reset)).isSome ∧
    State.reset.crc = 0x0000#16 ∧
    (after (runWords [0x0B00#13, 0x15AA#13, 0x1F00#13] State.reset)).isSome := by
  refine ⟨fun w hw => ?_, fun w hw => ?_, by decide +kernel, by decide +kernel, rfl, by decide +kernel⟩
  · simp only [List.mem_cons, List.not_mem_nil, or_false] at hw
    rcases hw with rfl | rfl | rfl | rfl <;> exact ⟨by decide, fun c h => by cases h⟩
  · simp only [List.mem_cons, List.not_mem_nil, or_false] at hw
    rcases hw with rfl | rfl | rfl <;>
      exact ⟨fun h => h.elim (fun h => by cases h) (fun ⟨_, h⟩ => by cases h), fun c h => by cases h⟩
theorem witness_plPush_clauses :
    (st 0 248#8 0 0 false []).plen.toNat < 249 ∧ (st 0 249#8 0 0 false []).plen.toNat = 249 ∧
    249 < (st 0 250#8 0 0 false []).plen.toNat := by decide
theorem witness_build_largest :
    (st 0 249#8 0 0 false (payloadAA 249)).plen.toNat ≤ 249 ∧
    fbLoad (st 0 249#8 0 0 false (payloadAA 249)).fb 4 (st 0 249#8 0 0 false (payloadAA 249)).plen.toNat =
      .ok (List.replicate 249 0xAA#8) :=
  ⟨Nat.le_refl 249, payloadAA_load (Nat.le_refl 249)⟩
theorem witness_build_empty : (fbLoad State.reset.fb 4 State.reset.plen.toNat).toOption = some [] := by decide
theorem witness_build_raises : 249 < (overflowed false []).plen.toNat := by decide
theorem witness_plClr_clears :
    commandOf .plClr = none ∧ (overflowed true []).toolarge = true ∧
    (after (exec .plClr (overflowed true []))).map (·.toolarge) = some false := by decide +kernel
theorem witness_build_twice :
    (after (exec (.build 0x31#8) (built []))).isSome ∧ (built []).plen.toNat ≤ 249 ∧
    (after (exec (.build 0x31#8) (overflowed false []))).isSome := by decide +kernel
theorem witness_rdFrb_clauses :
    (built []).rp.toNat < (built []).len.toNat ∧ (built []).fb.read (built []).rp.toNat = some 0x02#8 ∧
    (st 0 0 6#8 6#8 false resetFrame).len.toNat ≤ (st 0 0 6#8 6#8 false resetFrame).rp.toNat ∧
    (built []).rp = 0#8 ∧ (fbLoad (built []).fb 0 (built []).len.toNat).toOption =
      some [0x02#8, 0x03#8, 0x06#8, 0x30#8, 0x41#8, 0xB3#8] := by decide
theorem witness_frame_transaction :
    (buildFrame 0x33#8 (List.replicate 249 0xAA#8)).isSome ∧ buildFrame 0x33#8 (List.replicate 250 0xAA#8) = none ∧
    State.reset.plen = 0#8 ∧ State.reset.len = 0#8 ∧ State.reset.toolarge = false := by
  refine ⟨?_, buildFrame_of_gt (List.length_replicate ▸ Nat.lt_succ_self 249), rfl, rfl, rfl⟩
  rw [buildFrame_of_le (p := List.replicate 249 0xAA#8) (Nat.le_of_eq List.length_replicate)]
  rfl
theorem witness_crc_words_interleaved :
    WithCrcWords [0x1400#13, 0x1730#13] [0x1400#13, 0x1000#13, 0x1131#13, 0x1730#13] :=
  .keep _ (.put _ (.inl (by decide)) (.put _ (.inr ⟨0x31#8, by decide⟩) (.keep _ .done)))
/-- The same for a payload that is too large: 250 bytes, one `CRCUPD` put before the words. -/
theorem witness_too_large_with_crc_words :
    buildFrame 0x30#8 (List.replicate 250 0xAA#8) = none ∧
    WithCrcWords (frameBuildWords 0x30#8 (List.replicate 250 0xAA#8) ++ [0x0B00#13, 0x0800#13, 0x0A00#13])
      (0x1131#13 :: (frameBuildWords 0x30#8 (List.replicate 250 0xAA#8) ++ [0x0B00#13, 0x0800#13, 0x0A00#13])) := by
  refine ⟨buildFrame_of_gt (List.length_replicate ▸ Nat.lt_succ_self 249), .put _ (.inr ⟨0x31#8, by decide⟩) ?_⟩
  generalize frameBuildWords 0x30#8 (List.replicate 250 0xAA#8) ++ [0x0B00#13, 0x0800#13, 0x0A00#13] = ws
  induction ws with
  | nil => exact .done
  | cons w ws ih => exact .keep w ih
/-- The hypotheses of the interleaved frame, all together: the words of `C.RESET`, one `CRCUPD` put before them. -/
theorem witness_frame_with_crc_words :
    buildFrame 0x30#8 [] = some [0x02#8, 0x03#8, 0x06#8, 0x30#8, 0x41#8, 0xB3#8] ∧
    WithCrcWords (frameBuildWords 0x30#8 [] ++ frameReadoutWords 6)
      (0x1131#13 :: (frameBuildWords 0x30#8 [] ++ frameReadoutWords 6)) := by
  refine ⟨by decide +kernel, .put _ (.inr ⟨0x31#8, by decide⟩) ?_⟩
  generalize frameBuildWords 0x30#8 [] ++ frameReadoutWords 6 = ws
  induction ws with
  | nil => exact .done
  | cons w ws ih => exact .keep w ih
theorem witness_tooLarge_set :
    Invariants (overflowed false [wordEvent 0x1733#13]).toBlock ∧
    (after (step (overflowed false [wordEvent 0x1733#13]))).map (·.toolarge) = some true :=
  ⟨overflowed_invariants _ _, by decide +kernel⟩
theorem witness_tooLarge_cleared :
    (after (step (overflowed true [wordEvent 0x1400#13]))).map (·.toolarge) = some false ∧
    (after (step (overflowed true [.reset]))).map (·.toolarge) = some false := by decide +kernel
theorem witness_tooLarge_stays :
    Invariants (overflowed true [wordEvent 0x15CC#13]).toBlock ∧ decodeWord 0x15CC#13 ≠ .instr .plClr ∧
    (after (step (overflowed true [wordEvent 0x15CC#13]))).map (fun t => (t.toolarge, t.plen)) =
      some (true, 250#8) :=
  ⟨overflowed_invariants _ _, by decide, by decide +kernel⟩
theorem witness_step_clauses :
    (built [.present (.word 0x0A00#13)]).pending = [.present (.word 0x0A00#13)] ∧
    decode (.word 0x0A00#13) = .ok (.instr .rdFrb) ∧ decode (.frame []) = .error .tooShort ∧
    (built [.reset]).pending = [.reset] ∧ (built []).pending = [] := ⟨rfl, rfl, rfl, rfl, rfl⟩
/-- One step and a run of the block under its events, the port apart. -/
theorem witness_block_step :
    (built [wordEvent 0x0A00#13, .reset]).pending = wordEvent 0x0A00#13 :: [.reset] ∧
    blockStep (wordEvent 0x0A00#13) (built []).toBlock = .next ⟨{ (built []).toBlock with rp := 1#8 }, [0x02#8]⟩ ∧
    blockRun [wordEvent 0x0A00#13, .reset] (built []).toBlock = .next ⟨Block.reset, [0x02#8]⟩ := ⟨rfl, rfl, rfl⟩
theorem witness_reserved : (built [wordEvent (0x1F#5 ++ 0xFF#8)]).pending = wordEvent (0x1F#5 ++ 0xFF#8) :: [] ∧
    (built [wordEvent (0x00#5 ++ 0xFF#8)]).pending = wordEvent (0x00#5 ++ 0xFF#8) :: [] := by decide
theorem witness_invariants_step :
    Invariants (built [wordEvent 0x0A00#13]).toBlock ∧ (after (step (built [wordEvent 0x0A00#13]))).isSome :=
  ⟨built_invariants _, by decide⟩
theorem witness_reachable :
    ∀ e ∈ [wordEvent 0x1400#13, .reset, wordEvent 0x1730#13], e = .reset ∨ ∃ w, e = wordEvent w := by
  intro e he
  simp only [List.mem_cons, List.not_mem_nil, or_false] at he
  rcases he with rfl | rfl | rfl
  · exact .inr ⟨_, rfl⟩
  · exact .inl rfl
  · exact .inr ⟨_, rfl⟩
theorem witness_no_stop : decode (.word 0x1FFF#13) = .ok (.reservedWrite 0xF#4 0xFF#8) ∧
    decode (encode (.cEnable 0xFF#8)) = .ok (.instr (.cEnable 0xFF#8)) :=
  ⟨rfl, by decide +kernel⟩
theorem witness_unwritten :
    (st 0 0 6#8 5#8 false []).rp.toNat < (st 0 0 6#8 5#8 false []).len.toNat ∧
    (st 0 0 6#8 5#8 false []).fb.read 5 = none ∧ (payloadAA 248).read (4 + 248) = none ∧
    ∀ j < 248, ((payloadAA 248).read (4 + j)).isSome := by
  refine ⟨by decide, rfl, payloadAA_read 248 248, fun j hj => ?_⟩
  simp [payloadAA_read, hj]
/-- The fault an outcome is, if it is one. -/
def faultOf (o : Out) : Option Fault :=
  match o with
  | .next _ => none
  | .fault r => some r
  | .refused _ => none
theorem witness_unwritten_faults :
    faultOf (exec .rdFrb (st 0 0 6#8 5#8 false [])) = some (.unwrittenFrameByte 5) ∧
    faultOf (exec (.build 0x30#8) (st 0 2#8 0 0 false [(4, 0xAA#8)])) = some (.unwrittenFrameByte 5) := by decide
/-- At `LEN` and beyond it, at the top of the range. -/
theorem witness_wrPtr_beyond :
    (built []).len.toNat ≤ (6#8 : Byte).toNat ∧ (built []).len.toNat ≤ (255#8 : Byte).toNat := by decide
theorem witness_side_effect :
    opIsWrite 0x157C#13 = true ∧ (after (step (built [wordEvent 0x157C#13]))).isSome ∧
    opIsWrite 0x0B00#13 = false ∧ (after (step (built [wordEvent 0x0B00#13]))).isSome ∧
    opIsWrite 0x0A00#13 = false ∧ (after (step (built [wordEvent 0x0A00#13]))).isSome := by decide
/-- Two states that differ in a byte beyond the frame. -/
theorem witness_same_observable :
    SameObservable (built [wordEvent 0x0A00#13]).toBlock
      { (built [wordEvent 0x0A00#13]).toBlock with fb := resetFrame ++ [(7, 0xEE#8)] } := by
  refine ⟨rfl, rfl, rfl, rfl, rfl, fun a ha => ?_⟩
  have h : a < 6 := by
    rcases ha with ha | ha
    · exact ha
    · have : 4 ≤ a ∧ a < 4 := ha
      omega
  have : ∀ b < 6, resetFrame.read b = Memory.read (resetFrame ++ [(7, 0xEE#8)]) b := by decide
  exact this a h
theorem witness_memory : resetFrame.wf ∧ (254 : Nat) < 255 := by decide
theorem witness_boot : (after (runWords [0x0A00#13] State.reset)).isSome ∧
    (after (runWords [0x1500#13] State.reset)).isSome := by decide

end Sys2Proof.Tests
end

section
/-! The invariants of `10_state.md` R32: from every block they hold of, every operation, reserved access, command and
reset goes on to a block they hold of (O43, O44, O42). -/

namespace Sys2Proof.Machine

/-! ## What keeps the invariants -/

/-- Without a frame, items 2, 3, 4 and 6 of R32 say nothing. -/
theorem Invariants.of_len_eq_zero {b : Block} (hlen : b.len = 0#8) (hplen : b.plen.toNat ≤ 250)
    (htoo : b.toolarge = true → b.plen = 250#8) (hfb : b.fb.wf)
    (hpay : ∀ k < min b.plen.toNat 249, (b.fb.read (4 + k)).isSome) : Invariants b where
  plenBound := hplen
  lenRange := .inl hlen
  lenOfPlen := fun h => absurd hlen h
  frameStands := fun h => absurd hlen h
  tooLargeState := fun h => ⟨htoo h, hlen⟩
  frameWritten := fun a ha => by simp [hlen] at ha
  fbCanonical := hfb
  payloadWritten := hpay

theorem Invariants.reset : Invariants Block.reset :=
  .of_len_eq_zero rfl (by simp) (by simp) Memory.nil_wf (by simp)

/-- No invariant speaks of `CRC` or of `RP`. -/
theorem Invariants.set_crc_rp {b : Block} (h : Invariants b) (v : Crc) (p : Byte) :
    Invariants { b with crc := v, rp := p } :=
  ⟨⟨h.plenBound, h.lenRange, h.lenOfPlen, h.frameStands, h.tooLargeState, h.frameWritten⟩,
    h.fbCanonical, h.payloadWritten⟩

theorem Invariants.toolarge_eq_false {b : Block} (h : Invariants b) (hp : b.plen.toNat ≤ 249) :
    b.toolarge = false := by
  by_contra ht
  obtain ⟨h250, -⟩ := h.tooLargeState (by simpa using ht)
  simp [h250] at hp

theorem Invariants.plen_eq_250 {b : Block} (h : Invariants b) (hp : 249 < b.plen.toNat) : b.plen = 250#8 :=
  BitVec.eq_of_toNat_eq (by have := h.plenBound; simp; omega)

theorem Invariants.clearPayload {b : Block} (h : Invariants b) : Invariants (clearPayload b) :=
  .of_len_eq_zero rfl (by simp) (by simp) h.fbCanonical (by simp)

theorem Invariants.raiseFrameTooLarge {b : Block} (h : Invariants b) (hp : 249 < b.plen.toNat) :
    Invariants (raiseFrameTooLarge b) :=
  .of_len_eq_zero rfl h.plenBound (fun _ => h.plen_eq_250 hp) h.fbCanonical h.payloadWritten

/-- A byte pushed below the bound becomes the last byte of the payload gathered. -/
theorem Invariants.push {b : Block} (h : Invariants b) (hp : b.plen.toNat < 249) (v : Byte) :
    Invariants { b with fb := b.fb.write (pushOffset b) v, plen := b.plen + 1#8, len := 0#8 } := by
  have hsucc : (b.plen + 1#8).toNat = b.plen.toNat + 1 := by
    rw [BitVec.toNat_add]; simp; omega
  refine .of_len_eq_zero rfl (by simp only [hsucc]; omega) (fun ht => ?_)
    (Memory.write_wf h.fbCanonical (by simp only [pushOffset, Config.maxFrame]; omega) v) fun k hk => ?_
  · simp [h.toolarge_eq_false (by omega)] at ht
  · simp only [hsucc] at hk
    simp only [Memory.read_write, pushOffset]
    split
    · rfl
    · exact h.payloadWritten k (by omega)

/-- A byte dropped leaves `PLEN` at 250 and the payload as it was. -/
theorem Invariants.push_dropped {b : Block} (h : Invariants b) (hp : 249 ≤ b.plen.toNat) :
    Invariants { b with plen := 250#8, len := 0#8 } :=
  .of_len_eq_zero rfl (by simp) (fun _ => rfl) h.fbCanonical fun k hk =>
    h.payloadWritten k (by simp at hk; omega)

/-! ## The frame a `BUILD` leaves -/

/-- Loading a frame of `build_frame` from `FB` is all that R32 item 4 asks. -/
theorem frameStands_of_fbLoad {b : Block} {c : Byte} {p : List Byte} (hlen : b.len.toNat = p.length + 6)
    (hload : fbLoad b.fb 0 b.len.toNat = .ok (withChecksum (frameHead c p))) : FrameStands b := by
  have hmax : b.len.toNat ≤ Config.maxFrame := Nat.le_of_lt_succ b.len.isLt
  obtain ⟨-, hread⟩ := (fbLoad_eq_ok (by omega)).1 hload
  simp only [Nat.zero_add] at hread
  have hhead : ∀ i < p.length + 4, b.fb.read i = (frameHead c p)[i]? := fun i hi => by
    rw [hread i (by omega), withChecksum, List.getElem?_append_left (by simpa using hi)]
  have hlenByte : BitVec.ofNat 8 (p.length + Config.overhead) = b.len :=
    BitVec.eq_of_toNat_eq (by simp [Config.overhead, ← hlen])
  refine ⟨hhead 0 (by omega), hhead 1 (by omega), ?_, frameHead c p, ?_, ?_, ?_⟩
  · rw [hhead 2 (by omega), ← hlenByte]; rfl
  · exact (fbLoad_eq_ok (by omega)).2 ⟨by simp [hlen], fun i hi => by
      rw [Nat.zero_add, hhead i (by omega)]⟩
  · rw [hread _ (by omega), withChecksum, List.getElem?_append_right (by simp [hlen])]
    simp [hlen]
  · rw [hread _ (by omega), withChecksum, List.getElem?_append_right (by simp [hlen])]
    simp [hlen]

/-- The frame built over the payload gathered: everything `effBuild_of_le` says a `BUILD` does. -/
theorem Invariants.build {b : Block} (h : Invariants b) (hp : b.plen.toNat ≤ 249) {c : Byte} {p : List Byte}
    (hpay : fbLoad b.fb 4 b.plen.toNat = .ok p) {m : Memory} (v : Crc)
    (hload : fbLoad m 0 (buildLength b) = .ok (withChecksum (frameHead c p)))
    (hkept : ∀ a, 4 ≤ a → a ≠ b.plen.toNat + 4 → a ≠ b.plen.toNat + 5 → m.read a = b.fb.read a) (hm : m.wf) :
    Invariants { b with fb := m, crc := v, len := BitVec.ofNat 8 (buildLength b), rp := 0#8 } := by
  obtain ⟨hplen, -⟩ := (fbLoad_eq_ok (by simp only [Config.maxFrame]; omega)).1 hpay
  have hlen : (BitVec.ofNat 8 (buildLength b)).toNat = b.plen.toNat + 6 := by
    simp [buildLength, Config.overhead]; omega
  have hload' : fbLoad m 0 (b.plen.toNat + 6) = .ok (withChecksum (frameHead c p)) := hload
  obtain ⟨hsize, hread⟩ := (fbLoad_eq_ok (by simp only [Config.maxFrame]; omega)).1 hload'
  exact {
    plenBound := h.plenBound
    lenRange := .inr (by simp only [hlen]; omega)
    lenOfPlen := fun _ => ⟨hp, hlen⟩
    frameStands := fun _ => frameStands_of_fbLoad (p := p) (by simp only [hlen, hplen])
      (by simpa only [hlen] using hload')
    tooLargeState := fun ht => by simp [h.toolarge_eq_false hp] at ht
    frameWritten := fun a ha => by
      simp only [hlen] at ha
      have hbyte := hread a ha
      rw [Nat.zero_add, List.getElem?_eq_getElem (by omega)] at hbyte
      simp [hbyte]
    fbCanonical := hm
    payloadWritten := fun k hk => by
      simp only at hk ⊢
      rw [hkept (4 + k) (by omega) (by omega) (by omega)]
      exact h.payloadWritten k hk }

/-! ## Every effect goes on and keeps them -/

/-- The operation goes on, to a block the invariants hold of. -/
def InvariantNext (o : Effect) : Prop := ∃ r, o = .next r ∧ Invariants r.block

theorem invariantNext_next {r : Reply} : InvariantNext (.next r) ↔ Invariants r.block := by
  simp [InvariantNext]

theorem Invariants.leave {b : Block} (h : Invariants b) : InvariantNext (leave b) := invariantNext_next.2 h

theorem Invariants.answer {b : Block} (h : Invariants b) (v : Byte) : InvariantNext (answer v b) :=
  invariantNext_next.2 h

/-- Sequencing: the next operation takes over the invariants the first one left. -/
theorem InvariantNext.andThen {o : Effect} {f : Block → Effect} (ho : InvariantNext o)
    (hf : ∀ b, Invariants b → InvariantNext (f b)) : InvariantNext (andThen o f) := by
  obtain ⟨r1, rfl, h1⟩ := ho
  obtain ⟨r2, hr2, h2⟩ := hf r1.block h1
  exact ⟨_, andThen_eq_next.2 ⟨r1, r2, rfl, hr2, rfl⟩, h2⟩

theorem effPlPush_invariantNext (v : Byte) {b : Block} (h : Invariants b) : InvariantNext (effPlPush v b) := by
  rcases Nat.lt_trichotomy b.plen.toNat Config.maxPayload with hp | hp | hp
  · exact effPlPush_of_lt v hp ▸ (h.push hp v).leave
  · exact effPlPush_of_eq v hp ▸ (h.push_dropped hp.ge).leave
  · have hdrop := h.push_dropped (Nat.le_of_lt hp)
    rw [← h.plen_eq_250 hp] at hdrop
    exact effPlPush_of_gt v hp ▸ hdrop.leave

/-- Within the bound the payload gathered is all there, so the `BUILD` finds every byte it reads. -/
theorem effBuild_invariantNext (c : Byte) {b : Block} (h : Invariants b) : InvariantNext (effBuild c b) := by
  by_cases hp : Config.maxPayload < b.plen.toNat
  · exact effBuild_of_gt c hp ▸ (h.raiseFrameTooLarge hp).leave
  · have hp : b.plen.toNat ≤ 249 := Nat.le_of_not_lt hp
    obtain ⟨p, hpay⟩ := fbLoad_exists (m := b.fb) (a := 4) (k := b.plen.toNat)
      (by simp only [Config.maxFrame]; omega) fun i hi => h.payloadWritten i (by omega)
    obtain ⟨m, hbuild, hload, hkept, hm⟩ := effBuild_of_le c hp hpay
    exact hbuild ▸ (h.build hp hpay _ hload hkept (hm h.fbCanonical)).leave

/-- Inside the frame R32 item 6 gives the byte an `RDFRB` reads. -/
theorem effRdFrb_invariantNext {b : Block} (h : Invariants b) : InvariantNext (effRdFrb b) := by
  by_cases hp : b.rp.toNat < b.len.toNat
  · obtain ⟨d, hd⟩ := Option.isSome_iff_exists.1 (h.frameWritten _ hp)
    exact effRdFrb_of_lt hp hd ▸ (h.set_crc_rp b.crc (b.rp + 1#8)).answer d
  · exact effRdFrb_of_ge (Nat.le_of_not_lt hp) ▸ h.answer _

theorem pushAll_invariantNext (p : List Byte) {b : Block} (h : Invariants b) : InvariantNext (pushAll p b) := by
  induction p generalizing b with
  | nil => exact h.leave
  | cons v p ih => exact (effPlPush_invariantNext v h).andThen fun _ => ih

theorem readFrameBytes_invariantNext (n : Nat) {b : Block} (h : Invariants b) :
    InvariantNext (readFrameBytes n b) := by
  induction n generalizing b with
  | zero => exact h.leave
  | succ n ih => exact (effRdFrb_invariantNext h).andThen fun _ => ih

theorem frameReadoutPart_invariantNext {b : Block} (h : Invariants b) : InvariantNext (frameReadoutPart b) := by
  refine (h.answer _).andThen fun b1 h1 => (h1.answer _).andThen fun b2 h2 => ?_
  split
  · exact readFrameBytes_invariantNext _ h2
  · exact h2.leave

theorem runFrame_invariantNext (c : Byte) (p : List Byte) {b : Block} (h : Invariants b) :
    InvariantNext (runFrame c p b) :=
  (h.clearPayload.leave.andThen fun _ h1 =>
    (pushAll_invariantNext p h1).andThen fun _ => effBuild_invariantNext c).andThen fun _ =>
      frameReadoutPart_invariantNext

theorem effectOf_invariantNext (i : Instr) {b : Block} (h : Invariants b) : InvariantNext (effectOf i b) := by
  cases i with
  | crcInit => exact (h.set_crc_rp _ b.rp).leave
  | crcUpd v => exact (h.set_crc_rp _ b.rp).leave
  | rdCrcL => exact h.answer _
  | rdCrcH => exact h.answer _
  | plClr => exact h.clearPayload.leave
  | plPush v => exact effPlPush_invariantNext v h
  | rdPlen => exact h.answer _
  | build c => exact effBuild_invariantNext c h
  | rdLen => exact h.answer _
  | rdPtr => exact h.answer _
  | wrPtr p => exact (h.set_crc_rp b.crc p).leave
  | rdFrb => exact effRdFrb_invariantNext h
  | rdStat => exact h.answer _
  | cReset => exact runFrame_invariantNext _ _ h
  | cStatus => exact runFrame_invariantNext _ _ h
  | cSecurity m => exact runFrame_invariantNext _ _ h
  | cPoll => exact runFrame_invariantNext _ _ h
  | cEnable m => exact runFrame_invariantNext _ _ h
  | cStack => exact runFrame_invariantNext _ _ h
  | cReturn => exact runFrame_invariantNext _ _ h
  | cIdent => exact runFrame_invariantNext _ _ h
  | cAck => exact runFrame_invariantNext _ _ h
  | cNsc => exact runFrame_invariantNext _ _ h

theorem effectOfDecoded_invariantNext (d : Decoded) {b : Block} (h : Invariants b) :
    InvariantNext (effectOfDecoded d b) := by
  cases d with
  | instr i => exact effectOf_invariantNext i h
  | reservedRead a => exact h.answer _
  | reservedWrite a v => exact h.leave

/-! ## Steps and runs -/

/-- A reset, or a code that stands for something: all but the bytes a step refuses (log entry 12). -/
def Executable (e : HostEvent) : Prop := e = .reset ∨ ∃ c d, e = .present c ∧ decode c = .ok d

theorem executable_wordEvent (w : OpWord) : Executable (wordEvent w) := .inr ⟨_, _, rfl, rfl⟩

theorem blockStep_present {c : Code} {d : Decoded} (h : decode c = .ok d) (b : Block) :
    blockStep (.present c) b = effectOfDecoded d b := by
  simp [blockStep, h]

theorem executable_of_blockStep {e : HostEvent} {b : Block} {r : Reply} (h : blockStep e b = .next r) :
    Executable e := by
  cases e with
  | reset => exact .inl rfl
  | present c =>
    cases hd : decode c with
    | ok d => exact .inr ⟨c, d, rfl, hd⟩
    | error f => simp [blockStep, hd] at h

theorem blockStep_invariantNext {e : HostEvent} (he : Executable e) {b : Block} (h : Invariants b) :
    InvariantNext (blockStep e b) := by
  rcases he with rfl | ⟨c, d, rfl, hd⟩
  · exact Invariants.reset.leave
  · exact blockStep_present hd b ▸ effectOfDecoded_invariantNext d h

theorem blockRun_invariantNext {es : List HostEvent} (he : ∀ e ∈ es, Executable e) {b : Block}
    (h : Invariants b) : InvariantNext (blockRun es b) := by
  induction es generalizing b with
  | nil => exact h.leave
  | cons e es ih =>
    obtain ⟨he, hes⟩ := List.forall_mem_cons.1 he
    exact (blockStep_invariantNext he h).andThen fun _ => ih hes

/-- Settles O43: whatever the pending event is, a step that goes on is an effect that keeps the invariants. -/
theorem everyStepKeepsInvariants : Obligations.EveryStepKeepsInvariants := by
  intro s t hs hstep
  cases hev : s.pending with
  | nil =>
    rw [step_nil hev] at hstep
    cases hstep
    exact hs
  | cons e rest =>
    rw [step_cons hev] at hstep
    obtain ⟨r, hr, rfl⟩ := onPort_eq_next.1 hstep
    have hnext := blockStep_invariantNext (executable_of_blockStep hr) hs
    exact invariantNext_next.1 (hr ▸ hnext)

/-- Settles O44: the run of the block from reset goes on to its end, and its last block meets the invariants. -/
theorem invariantsHoldOfEveryReachableState : Obligations.InvariantsHoldOfEveryReachableState := by
  intro evs hevs
  have hexec : ∀ e ∈ evs, Executable e := fun e he => by
    rcases hevs e he with rfl | ⟨w, rfl⟩
    · exact .inl rfl
    · exact executable_wordEvent w
  obtain ⟨r, hr, hinv⟩ := blockRun_invariantNext hexec Invariants.reset
  exact ⟨State.reset.take r, (run_given evs State.reset).trans (onPort_of_next hr), rfl, hinv.toRuleInvariants⟩

/-- Settles O42: reset leaves no frame, no payload and nothing in `FB`. -/
theorem resetStateMeetsInvariants : Obligations.ResetStateMeetsInvariants := Invariants.reset

/-- Settles O51: a step and a run are the block's, fed from the port. -/
theorem stepIsTheBlocksStepUnderTheNextEvent : Obligations.StepIsTheBlocksStepUnderTheNextEvent :=
  ⟨fun _ _ _ hev => step_cons hev, run_given⟩

end Sys2Proof.Machine
end

section
/-! What one bus operation can write (`10_state.md` R21 to R26, O48). -/

namespace Sys2Proof.Machine

/-! ## A word is no command -/

theorem commandOf_of_writeOp {reg : Reg} {d : Byte} {i : Instr} (h : writeOp reg d = some i) :
    commandOf i = none := by
  cases reg <;> cases h <;> rfl

theorem commandOf_of_readOp {reg : Reg} {i : Instr} (h : readOp reg = some i) : commandOf i = none := by
  cases reg <;> cases h <;> rfl

theorem commandOf_of_decodeWord {w : OpWord} {i : Instr} (h : decodeWord w = .instr i) : commandOf i = none := by
  simp only [decodeWord] at h
  split at h <;> split at h <;> cases h
  · next hop =>
    obtain ⟨reg, -, hreg⟩ := Option.bind_eq_some_iff.1 hop
    exact commandOf_of_writeOp hreg
  · next hop =>
    obtain ⟨reg, -, hreg⟩ := Option.bind_eq_some_iff.1 hop
    exact commandOf_of_readOp hreg

/-! ## The block a bus operation leaves -/

/-- The blocks a bus operation can leave of `b`, with the guard of each branch. A `BUILD` is said to write the header's
and the checksum's offsets, not what stands there (`effBuild_of_le`). -/
inductive BusOpLeaves (b : Block) : Instr → Block → Prop where
  | read {i : Instr} (h : i ∈ [.rdCrcL, .rdCrcH, .rdPlen, .rdLen, .rdPtr, .rdFrb, .rdStat]) : BusOpLeaves b i b
  | crcInit : BusOpLeaves b .crcInit { b with crc := Config.crcInit }
  | crcUpd (v : Byte) : BusOpLeaves b (.crcUpd v) { b with crc := crcByte b.crc v }
  | plClr : BusOpLeaves b .plClr (clearPayload b)
  | pushed (v : Byte) (h : b.plen.toNat < 249) : BusOpLeaves b (.plPush v)
      { b with fb := b.fb.write (pushOffset b) v, plen := b.plen + 1#8, len := 0#8 }
  | pushDropped (v n : Byte) (h : 249 ≤ b.plen.toNat) : BusOpLeaves b (.plPush v) { b with plen := n, len := 0#8 }
  | raised (c : Byte) (h : 249 < b.plen.toNat) : BusOpLeaves b (.build c) (raiseFrameTooLarge b)
  | built (c : Byte) (h : b.plen.toNat ≤ 249) (m : Memory) (v : Crc) (n : Byte)
      (hm : ∀ a, 4 ≤ a → a ≠ b.plen.toNat + 4 → a ≠ b.plen.toNat + 5 → m.read a = b.fb.read a) :
      BusOpLeaves b (.build c) { b with fb := m, crc := v, len := n, rp := 0#8 }
  | wrPtr (p : Byte) : BusOpLeaves b (.wrPtr p) { b with rp := p }
  | rdFrb (h : b.rp.toNat < b.len.toNat) : BusOpLeaves b .rdFrb { b with rp := b.rp + 1#8 }

theorem effPlPush_leaves {v : Byte} {b : Block} {r : Reply} (h : effPlPush v b = .next r) :
    BusOpLeaves b (.plPush v) r.block := by
  rcases Nat.lt_trichotomy b.plen.toNat Config.maxPayload with hp | hp | hp
  · rw [effPlPush_of_lt v hp] at h
    exact leave_eq_next.1 h ▸ .pushed v hp
  · rw [effPlPush_of_eq v hp] at h
    exact leave_eq_next.1 h ▸ .pushDropped v _ hp.ge
  · rw [effPlPush_of_gt v hp] at h
    exact leave_eq_next.1 h ▸ .pushDropped v b.plen (Nat.le_of_lt hp)

theorem effBuild_leaves {c : Byte} {b : Block} {r : Reply} (h : effBuild c b = .next r) :
    BusOpLeaves b (.build c) r.block := by
  rcases effBuild_next h with ⟨hp, rfl⟩ | ⟨hp, p, hpay⟩
  · exact .raised c hp
  · obtain ⟨m, hbuild, -, hkept, -⟩ := effBuild_of_le c hp hpay
    rw [hbuild] at h
    exact leave_eq_next.1 h ▸ .built c hp m _ _ hkept

theorem effRdFrb_leaves {b : Block} {r : Reply} (h : effRdFrb b = .next r) : BusOpLeaves b .rdFrb r.block := by
  unfold effRdFrb at h
  split at h
  · next hp =>
    split at h
    · exact answer_eq_next.1 h ▸ .rdFrb hp
    · cases h
  · exact answer_eq_next.1 h ▸ .read (by simp)

/-- All a bus operation that goes on can leave. -/
theorem effectOf_leaves {i : Instr} (hi : commandOf i = none) {b : Block} {r : Reply}
    (h : effectOf i b = .next r) : BusOpLeaves b i r.block := by
  cases i with
  | crcInit => exact leave_eq_next.1 h ▸ .crcInit
  | crcUpd v => exact leave_eq_next.1 h ▸ .crcUpd v
  | plClr => exact leave_eq_next.1 h ▸ .plClr
  | plPush v => exact effPlPush_leaves h
  | build c => exact effBuild_leaves h
  | wrPtr p => exact leave_eq_next.1 h ▸ .wrPtr p
  | rdFrb => exact effRdFrb_leaves h
  | rdCrcL => exact answer_eq_next.1 h ▸ .read (by simp)
  | rdCrcH => exact answer_eq_next.1 h ▸ .read (by simp)
  | rdPlen => exact answer_eq_next.1 h ▸ .read (by simp)
  | rdLen => exact answer_eq_next.1 h ▸ .read (by simp)
  | rdPtr => exact answer_eq_next.1 h ▸ .read (by simp)
  | rdStat => exact answer_eq_next.1 h ▸ .read (by simp)
  | cReset | cStatus | cSecurity | cPoll | cEnable | cStack | cReturn | cIdent | cAck | cNsc => cases hi

/-- All a word's step can leave: nothing changed (reserved accesses among them, R65), or what its operation writes. -/
theorem blockStep_word_leaves {w : OpWord} {b : Block} {r : Reply} (h : blockStep (wordEvent w) b = .next r) :
    r.block = b ∨ ∃ i, decodeWord w = .instr i ∧ BusOpLeaves b i r.block := by
  rw [blockStep_word] at h
  cases hd : decodeWord w with
  | instr i => rw [hd] at h; exact .inr ⟨i, rfl, effectOf_leaves (commandOf_of_decodeWord hd) h⟩
  | reservedRead a => rw [hd] at h; exact .inl (congrArg Reply.block (answer_eq_next.1 h))
  | reservedWrite a v => rw [hd] at h; exact .inl (congrArg Reply.block (leave_eq_next.1 h))

/-- Settles O48: each branch of each operation, against the items it leaves alone. -/
theorem eachItemIsWrittenByItsOperationsOnly : Obligations.EachItemIsWrittenByItsOperationsOnly := by
  intro s t w rest hev hstep
  rw [step_cons hev] at hstep
  obtain ⟨r, hr, rfl⟩ := onPort_eq_next.1 hstep
  simp only [State.take_toBlock]
  rcases blockStep_word_leaves hr with hsame | ⟨i, hd, hleaves⟩
  · simp [hsame]
  generalize r.block = b at hleaves
  simp only [hd]
  cases hleaves with
  | read | crcInit | crcUpd | plClr | pushDropped | wrPtr | rdFrb => simp
  | raised c hp => simp [hp]
  | pushed v hp =>
    have hfb : ∀ a, ¬ (s.fb.write (pushOffset s.toBlock) v).read a = s.fb.read a → a = pushOffset s.toBlock :=
      fun a ha => by_contra fun hne => ha (Memory.read_write_ne s.fb v hne)
    simpa [hp] using hfb
  | built c hp m v n hm =>
    have hfb : ∀ a, ¬ m.read a = s.fb.read a →
        a < 4 ∨ a = buildLength s.toBlock - 2 ∨ a = buildLength s.toBlock - 1 := fun a ha => by
      by_contra hne
      simp only [buildLength, Config.overhead] at hne
      exact ha (hm a (by omega) (by simp only; omega) (by simp only; omega))
    simpa [hp] using hfb

end Sys2Proof.Machine
end

section
/-! Where an operation of the block stops, and where none does (`20_memory.md` R41, R52; O45, O46). -/

namespace Sys2Proof.Machine

/-! ## The bytes that nothing has written -/

/-- All `fbLoad` can stop at: the first offset it covers that holds no byte. -/
theorem fbLoad_eq_error {m : Memory} {a n : Nat} {f : Fault} (h : a + n ≤ Config.maxFrame) :
    fbLoad m a n = .error f ↔ ∃ k < n, (∀ j < k, (m.read (a + j)).isSome) ∧ m.read (a + k) = none ∧
      f = .unwrittenFrameByte (a + k) := by
  induction n generalizing a with
  | zero => simp [fbLoad]
  | succ n ih =>
    rw [Nat.exists_lt_succ_left, fbLoad, fbRead_of_lt (by omega)]
    simp only [Nat.forall_lt_succ_left, Nat.add_zero]
    cases hr : m.read a with
    | none => simp [eq_comm (a := f)]
    | some b =>
      have hshift : ∀ j, a + 1 + j = a + (j + 1) := fun j => Nat.add_right_comm a 1 j
      have hrest := ih (a := a + 1) (by omega)
      simp only [hshift] at hrest
      cases hl : fbLoad m (a + 1) n <;> simp [← hrest, hl]

theorem effRdFrb_of_unwritten {b : Block} (h : b.rp.toNat < b.len.toNat) (hn : b.fb.read b.rp.toNat = none) :
    effRdFrb b = .fault (.unwrittenFrameByte b.rp.toNat) := by
  have hmax : b.rp.toNat < Config.maxFrame := Nat.lt_of_lt_of_le h (Nat.le_of_lt_succ b.len.isLt)
  simp [effRdFrb, h, fbRead_of_lt hmax, hn]

/-- A `BUILD` within the bound reads the header it has just written, then the payload: it stops where a load of the
payload alone does. -/
theorem effBuild_of_load_error (c : Byte) {b : Block} {f : Fault} (h : b.plen.toNat ≤ Config.maxPayload)
    (hf : fbLoad b.fb 4 b.plen.toNat = .error f) : effBuild c b = .fault f := by
  simp only [Config.maxPayload] at h
  obtain ⟨k, hk, hwritten, hnone, rfl⟩ := (fbLoad_eq_error (by simp only [Config.maxFrame]; omega)).1 hf
  obtain ⟨m, hstore, hheader, hkept, -⟩ := fbStore_spec (m := b.fb) (a := 0)
    (bs := [Config.sync, Config.addr, BitVec.ofNat 8 (buildLength b), c]) (by simp [Config.maxFrame])
  simp only [Nat.zero_add, List.length_cons, List.length_nil] at hheader hkept
  have hload : fbLoad m 0 (buildLength b - 2) = .error (.unwrittenFrameByte (4 + k)) := by
    simp only [buildLength, Config.overhead]
    refine (fbLoad_eq_error (by simp only [Config.maxFrame]; omega)).2
      ⟨4 + k, by omega, fun j hj => ?_, ?_, by rw [Nat.zero_add]⟩
    · rw [Nat.zero_add]
      by_cases hj4 : j < 4
      · simp [hheader j hj4, hj4]
      · rw [hkept j (by omega), show j = 4 + (j - 4) by omega]
        exact hwritten (j - 4) (by omega)
    · rw [Nat.zero_add, hkept (4 + k) (by omega), hnone]
  simp [effBuild, Config.maxPayload, Nat.not_lt.2 h, buildInPlace, hstore, hload]

/-! ## A command reads only what it has written -/

theorem effectOf_eq_runFrame {i : Instr} {c : Byte} {p : List Byte} (h : commandOf i = some (c, p)) (b : Block) :
    effectOf i b = runFrame c p b := by
  cases i <;> cases h <;> rfl

theorem length_le_of_commandOf {i : Instr} {c : Byte} {p : List Byte} (h : commandOf i = some (c, p)) :
    p.length ≤ Config.maxPayload := by
  cases i <;> cases h <;> simp [securityPayload, enablePayload, Config.maxPayload]

theorem frameReadoutPart_next {b : Block} {f : List Byte} (hrp : b.rp = 0#8)
    (hf : fbLoad b.fb 0 b.len.toNat = .ok f) : ∃ r, frameReadoutPart b = .next r := by
  have hread := readFrameBytes_spec (n := b.len.toNat) (s := b) (f := f) (by simp [hrp]) (by simpa [hrp] using hf)
  simp only [frameReadoutPart, effRdStat, effRdLen, andThen_answer]
  split
  · exact ⟨_, by rw [hread]; rfl⟩
  · exact ⟨_, rfl⟩

theorem runFrame_next (c : Byte) {p : List Byte} (h : p.length ≤ Config.maxPayload) (b : Block) :
    ∃ r, runFrame c p b = .next r := by
  obtain ⟨m, hbuild, hload, -, -⟩ := frameBuildPart_spec c h b
  have hlen : (BitVec.ofNat 8 (p.length + Config.overhead)).toNat = p.length + Config.overhead := by
    simp only [Config.maxPayload, Config.overhead, BitVec.toNat_ofNat] at *; omega
  rw [runFrame, hbuild, andThen_leave]
  exact frameReadoutPart_next rfl (by rw [hlen]; exact hload)

theorem effectOf_command_next {i : Instr} {c : Byte} {p : List Byte} (h : commandOf i = some (c, p)) (b : Block) :
    ∃ r, effectOf i b = .next r :=
  effectOf_eq_runFrame h b ▸ runFrame_next c (length_le_of_commandOf h) b

/-! ## All the stops -/

/-- The offsets without a byte at which an instruction stops (log entries 4 and 5). -/
inductive StopsAt (b : Block) : Instr → Nat → Prop where
  | rdFrb (h : b.rp.toNat < b.len.toNat) (hn : b.fb.read b.rp.toNat = none) : StopsAt b .rdFrb b.rp.toNat
  | build (c : Byte) (k : Nat) (hp : b.plen.toNat ≤ 249) (hk : k < b.plen.toNat) (hn : b.fb.read (4 + k) = none) :
      StopsAt b (.build c) (4 + k)

/-- The operation goes on, or stops at an offset of `StopsAt`. -/
def NextOrStopsAt (b : Block) (i : Instr) (o : Effect) : Prop :=
  (∃ r, o = .next r) ∨ ∃ a, o = .fault (.unwrittenFrameByte a) ∧ StopsAt b i a

theorem effRdFrb_nextOrStopsAt (b : Block) : NextOrStopsAt b .rdFrb (effRdFrb b) := by
  by_cases h : b.rp.toNat < b.len.toNat
  · cases hd : b.fb.read b.rp.toNat with
    | some d => exact .inl ⟨_, effRdFrb_of_lt h hd⟩
    | none => exact .inr ⟨_, effRdFrb_of_unwritten h hd, .rdFrb h hd⟩
  · exact .inl ⟨_, effRdFrb_of_ge (Nat.le_of_not_lt h)⟩

theorem effBuild_nextOrStopsAt (c : Byte) (b : Block) : NextOrStopsAt b (.build c) (effBuild c b) := by
  by_cases h : Config.maxPayload < b.plen.toNat
  · exact .inl ⟨_, effBuild_of_gt c h⟩
  · have h : b.plen.toNat ≤ 249 := Nat.le_of_not_lt h
    cases hp : fbLoad b.fb 4 b.plen.toNat with
    | ok p =>
      obtain ⟨m, hbuild, -⟩ := effBuild_of_le c h hp
      exact .inl ⟨_, hbuild⟩
    | error f =>
      obtain ⟨k, hk, -, hn, rfl⟩ := (fbLoad_eq_error (by simp only [Config.maxFrame]; omega)).1 hp
      exact .inr ⟨_, effBuild_of_load_error c h hp, .build c k h hk hn⟩

theorem effectOf_nextOrStopsAt (i : Instr) (b : Block) : NextOrStopsAt b i (effectOf i b) := by
  cases i with
  | plPush v =>
    obtain ⟨t, ht⟩ := effPlPush_next v b
    exact .inl ⟨_, ht⟩
  | build c => exact effBuild_nextOrStopsAt c b
  | rdFrb => exact effRdFrb_nextOrStopsAt b
  | crcInit | crcUpd | rdCrcL | rdCrcH | plClr | rdPlen | rdLen | rdPtr | wrPtr | rdStat => exact .inl ⟨_, rfl⟩
  | cReset | cStatus | cSecurity | cPoll | cEnable | cStack | cReturn | cIdent | cAck | cNsc =>
    exact .inl (effectOf_command_next rfl b)

/-- What stops an instruction at the port is an unwritten byte it reads. -/
theorem stopsAt_of_exec_eq_fault {i : Instr} {s : State} {f : Fault} (h : exec i s = .fault f) :
    ∃ a, f = .unwrittenFrameByte a ∧ StopsAt s.toBlock i a := by
  rw [exec_eq_onPort, onPort_eq_fault] at h
  rcases effectOf_nextOrStopsAt i s.toBlock with ⟨r, hr⟩ | ⟨a, ha, hstop⟩
  · simp [hr] at h
  · rw [ha] at h
    cases h
    exact ⟨a, rfl, hstop⟩

theorem exec_ne_refused (i : Instr) (s : State) (f : Refusal) : exec i s ≠ .refused f := by
  rw [exec_eq_onPort, Ne, onPort_eq_refused]
  rcases effectOf_nextOrStopsAt i s.toBlock with ⟨r, hr⟩ | ⟨a, ha, -⟩
  · simp [hr]
  · simp [ha]

/-- Settles O46: the two stops, and that every instruction goes on or takes one of them. -/
theorem onlyAnUnwrittenByteStopsAnOperation : Obligations.OnlyAnUnwrittenByteStopsAnOperation := by
  refine ⟨fun s h hn => ?_, fun s c k hp hk hwritten hn => ?_, fun i s => ⟨fun f hf => ?_, fun a ha => ?_, ?_⟩⟩
  · exact (exec_eq_onPort _ s).trans (onPort_of_fault (effRdFrb_of_unwritten h hn))
  · have hload : fbLoad s.fb 4 s.plen.toNat = .error (.unwrittenFrameByte (4 + k)) :=
      (fbLoad_eq_error (by simp only [Config.maxFrame]; omega)).2 ⟨k, hk, hwritten, hn, rfl⟩
    exact (exec_eq_onPort _ s).trans (onPort_of_fault (effBuild_of_load_error c hp hload))
  · obtain ⟨a, rfl, hstop⟩ := stopsAt_of_exec_eq_fault hf
    cases hstop with
    | rdFrb h hn => exact ⟨_, rfl, hn, .inl ⟨rfl, rfl, h⟩⟩
    | build c k hp hk hn => exact ⟨_, rfl, hn, .inr ⟨hp, by omega, by omega, c, rfl⟩⟩
  · obtain ⟨_, hne, -⟩ := stopsAt_of_exec_eq_fault ha
    cases hne
  · exact exec_ne_refused i s

/-- Settles O45: the block's step goes on from a block the invariants hold of, and the port takes the event off. -/
theorem noStepStopsWhereInvariantsHold : Obligations.NoStepStopsWhereInvariantsHold := by
  intro s e rest hinv hev hexec
  obtain ⟨r, hr, -⟩ := blockStep_invariantNext hexec hinv
  exact ⟨_, (step_cons hev).trans (onPort_of_next hr), rfl⟩

end Sys2Proof.Machine
end

section
/-! What a bus operation returns, and the one read that changes the block (`20_memory.md` R46, O47). -/

namespace Sys2Proof.Machine

/-! ## The direction of a word, and what it decodes to -/

theorem decodeWord_of_write {w : OpWord} (h : opIsWrite w = true) :
    decodeWord w = .reservedWrite (opAddr w) (opData w) ∨
    ∃ reg i, writeOp reg (opData w) = some i ∧ decodeWord w = .instr i := by
  simp only [decodeWord, h, if_true]
  split
  · next i hop =>
    obtain ⟨reg, -, hreg⟩ := Option.bind_eq_some_iff.1 hop
    exact .inr ⟨reg, i, hreg, rfl⟩
  · exact .inl rfl

theorem decodeWord_of_read {w : OpWord} (h : opIsWrite w = false) :
    decodeWord w = .reservedRead (opAddr w) ∨ ∃ reg i, readOp reg = some i ∧ decodeWord w = .instr i := by
  simp only [decodeWord, h, Bool.false_eq_true, if_false]
  split
  · next i hop =>
    obtain ⟨reg, -, hreg⟩ := Option.bind_eq_some_iff.1 hop
    exact .inr ⟨reg, i, hreg, rfl⟩
  · exact .inl rfl

/-! ## The reply to a write -/

theorem leave_bytes {b : Block} {r : Reply} (h : leave b = .next r) : r.bytes = [] :=
  leave_eq_next.1 h ▸ rfl

theorem effPlPush_bytes {v : Byte} {b : Block} {r : Reply} (h : effPlPush v b = .next r) : r.bytes = [] := by
  obtain ⟨t, ht⟩ := effPlPush_next v b
  exact leave_bytes (ht.symm.trans h)

theorem effBuild_bytes {c : Byte} {b : Block} {r : Reply} (h : effBuild c b = .next r) : r.bytes = [] := by
  rcases effBuild_next h with ⟨-, rfl⟩ | ⟨hp, p, hpay⟩
  · rfl
  · obtain ⟨m, hbuild, -⟩ := effBuild_of_le c hp hpay
    exact leave_bytes (hbuild.symm.trans h)

theorem effectOf_writeOp_bytes {reg : Reg} {d : Byte} {i : Instr} (hi : writeOp reg d = some i) {b : Block}
    {r : Reply} (h : effectOf i b = .next r) : r.bytes = [] := by
  cases reg with
  | crcInit | crcData | plClr | frPtr => cases hi; exact leave_bytes h
  | plData => cases hi; exact effPlPush_bytes h
  | frBuild => cases hi; exact effBuild_bytes h
  | crcLo | crcHi | plLen | frLen | frData | status => cases hi

/-- A write returns nothing, a reserved one included (`30_encoding.md` R60, R65). -/
theorem blockStep_write_bytes {w : OpWord} (hw : opIsWrite w = true) {b : Block} {r : Reply}
    (h : blockStep (wordEvent w) b = .next r) : r.bytes = [] := by
  rw [blockStep_word] at h
  rcases decodeWord_of_write hw with hd | ⟨reg, i, hop, hd⟩
  · rw [hd] at h; exact leave_bytes h
  · rw [hd] at h; exact effectOf_writeOp_bytes hop h

/-! ## The reply to a read -/

/-- The replies a read can give: one byte over the block as it was, or, inside the frame and for `RDFRB` alone, the
frame byte with `RP` moved on. -/
inductive ReadReply (b : Block) (d : Decoded) : Reply → Prop where
  | unchanged (v : Byte) (h : ¬ (d = .instr .rdFrb ∧ b.rp.toNat < b.len.toNat)) : ReadReply b d ⟨b, [v]⟩
  | frameByte (v : Byte) (hd : d = .instr .rdFrb) (h : b.rp.toNat < b.len.toNat)
      (hv : b.fb.read b.rp.toNat = some v) : ReadReply b d ⟨{ b with rp := b.rp + 1#8 }, [v]⟩

theorem readReply_of_answer {b : Block} {d : Decoded} {v : Byte} {r : Reply} (hd : d ≠ .instr .rdFrb)
    (h : answer v b = .next r) : ReadReply b d r :=
  answer_eq_next.1 h ▸ .unchanged v fun hf => hd hf.1

theorem effRdFrb_readReply {b : Block} {r : Reply} (h : effRdFrb b = .next r) :
    ReadReply b (.instr .rdFrb) r := by
  by_cases hp : b.rp.toNat < b.len.toNat
  · cases hv : b.fb.read b.rp.toNat with
    | some v =>
      rw [effRdFrb_of_lt hp hv] at h
      exact answer_eq_next.1 h ▸ .frameByte v rfl hp hv
    | none => simp [effRdFrb_of_unwritten hp hv] at h
  · rw [effRdFrb_of_ge (Nat.le_of_not_lt hp)] at h
    exact answer_eq_next.1 h ▸ .unchanged _ fun hf => hp hf.2

theorem effectOf_readOp_readReply {reg : Reg} {i : Instr} (hi : readOp reg = some i) {b : Block} {r : Reply}
    (h : effectOf i b = .next r) : ReadReply b (.instr i) r := by
  cases reg with
  | frData => cases hi; exact effRdFrb_readReply h
  | crcLo | crcHi | plLen | frLen | frPtr | status => cases hi; exact readReply_of_answer (by simp) h
  | crcInit | crcData | plClr | plData | frBuild => cases hi

theorem blockStep_readReply {w : OpWord} (hw : opIsWrite w = false) {b : Block} {r : Reply}
    (h : blockStep (wordEvent w) b = .next r) : ReadReply b (decodeWord w) r := by
  rw [blockStep_word] at h
  rcases decodeWord_of_read hw with hd | ⟨reg, i, hop, hd⟩
  · rw [hd] at h ⊢; exact readReply_of_answer (by simp) h
  · rw [hd] at h ⊢; exact effectOf_readOp_readReply hop h

/-- Settles O47: the replies of the two directions, taken at the port. -/
theorem oneReadHasASideEffect : Obligations.OneReadHasASideEffect := by
  intro s t w rest hev hstep
  rw [step_cons hev] at hstep
  obtain ⟨r, hr, rfl⟩ := onPort_eq_next.1 hstep
  refine ⟨fun hw => ?_, fun hw => ?_⟩
  · rw [State.take_returned, blockStep_write_bytes hw hr, List.append_nil]
  · cases blockStep_readReply hw hr with
    | unchanged v h => exact ⟨v, .inl ⟨h, rfl⟩⟩
    | frameByte v hd h hv => exact ⟨v, .inr ⟨hd, h, hv, rfl⟩⟩

end Sys2Proof.Machine
end

section
/-! The canonical form of `FB` (`20_memory.md` R40, R44, O50): a memory in it is the set of its cells, and that set is
what its reads tell. -/

namespace Sys2Proof.Machine

/-- In a memory whose offsets rise, the byte an offset reads as is the byte listed there. -/
theorem Memory.read_eq_some_iff_mem {m : Memory} (hm : m.Pairwise fun x y => x.1 < y.1) {a : Nat} {b : Byte} :
    m.read a = some b ↔ (a, b) ∈ m := by
  induction m with
  | nil => simp
  | cons c m ih =>
    obtain ⟨k, v⟩ := c
    obtain ⟨hlt, htail⟩ := List.pairwise_cons.1 hm
    rw [Memory.read, List.mem_cons, ← ih htail]
    by_cases hk : k = a
    · subst hk
      have hnot : Memory.read m k ≠ some b := fun h => absurd (hlt _ ((ih htail).1 h)) (Nat.lt_irrefl k)
      simp [hnot, eq_comm]
    · simp [hk, Ne.symm hk]

/-- Memories in canonical form that read alike list the same cells, each once and in the same order. -/
theorem Memory.ext_of_wf {m m' : Memory} (hm : m.wf) (hm' : m'.wf) (h : ∀ a, m.read a = m'.read a) : m = m' := by
  obtain ⟨hrise, -⟩ := hm
  obtain ⟨hrise', -⟩ := hm'
  have hmem : ∀ x, x ∈ m ↔ x ∈ m' := fun (a, b) => by
    rw [← read_eq_some_iff_mem hrise, ← read_eq_some_iff_mem hrise', h]
  have hne : ∀ x y : Host.Cell, x.1 < y.1 → x ≠ y := fun x y hxy hxy' => by simp [hxy'] at hxy
  have hperm : m.Perm m' :=
    (List.perm_ext_iff_of_nodup (hrise.imp (hne _ _)) (hrise'.imp (hne _ _))).2 hmem
  exact hperm.eq_of_pairwise (fun x y _ _ hxy hyx => absurd hxy (Nat.lt_asymm hyx)) hrise hrise'

/-- Settles O50: the laws of a write, and that a memory in canonical form is what it reads as. -/
theorem equalFrameBuffersAreEqualData : Obligations.EqualFrameBuffersAreEqualData :=
  ⟨fun m a b hm ha =>
      ⟨Memory.write_wf hm ha b, Memory.read_write_same m a b, fun _ hx => Memory.read_write_ne m b hx⟩,
    fun _ _ hm hm' h => Memory.ext_of_wf hm hm' h⟩

end Sys2Proof.Machine
end

section
/-! The operation words (`30_encoding.md` R61 to R66): their fields, what each decodes to, and the nineteen reserved
accesses, and the step that runs what an event decodes to (O2, O3, O5, O38, O39). -/

namespace Sys2Proof.Machine

/-! ## The fields of a word -/

/-- A word is its three fields (`30_encoding.md` R61). -/
theorem opWord_eq_fields (w : OpWord) : w = (BitVec.ofBool (opIsWrite w) ++ opAddr w) ++ opData w := by
  have hselect : ∀ x : BitVec 5, x = BitVec.ofBool (x.getLsbD 4) ++ x.extractLsb' 0 4 := by decide
  rw [opWord_split w, opIsWrite_append, opAddr_append, opData_append, ← hselect]

/-- The mask of `W` and `A` clears the data byte and nothing else. -/
theorem opWord_and_selectMask (w : OpWord) :
    w &&& 0x1F00#13 = (BitVec.ofBool (opIsWrite w) ++ opAddr w) ++ 0x00#8 := by
  have hmask : (0x1F00#13 : OpWord) = BitVec.allOnes (1 + 4) ++ 0#8 := rfl
  conv_lhs => rw [opWord_eq_fields w, hmask]
  rw [BitVec.and_append, BitVec.and_allOnes, BitVec.and_zero]

/-! ## The register map -/

theorem ofAddr_addr (r : Reg) : Reg.ofAddr r.addr = some r := by
  cases r <;> rfl

theorem eq_addr_of_ofAddr {a : RegAddr} {r : Reg} (h : Reg.ofAddr a = some r) : a = r.addr := by
  revert a r
  decide

theorem writeOp_eq_none {r : Reg} {d : Byte} : writeOp r d = none ↔ r.access = .ro := by
  cases r <;> simp [writeOp, Reg.access]

theorem readOp_eq_none {r : Reg} : readOp r = none ↔ r.access = .wo := by
  cases r <;> simp [readOp, Reg.access]

/-- The data byte of a write is the operand of the operation, or is ignored (R62, R64). -/
theorem asmOperand_of_writeOp {r : Reg} {d : Byte} {i : Instr} (h : writeOp r d = some i) :
    asmOperand i = none ∨ asmOperand i = some d := by
  cases r <;> cases h <;> simp [asmOperand]

theorem asmOperand_of_readOp {r : Reg} {i : Instr} (h : readOp r = some i) : asmOperand i = none := by
  cases r <;> cases h <;> rfl

/-- The canonical word of a write has the operand as its data byte, and zero where there is none (R62, R64). -/
theorem encode_of_writeOp {r : Reg} {d : Byte} {i : Instr} (h : writeOp r d = some i) :
    encode i = .word (writeWord r.addr ((asmOperand i).getD 0x00#8)) := by
  cases r <;> cases h <;> rfl

theorem encode_of_readOp {r : Reg} {i : Instr} (h : readOp r = some i) : encode i = .word (readWord r.addr) := by
  cases r <;> cases h <;> rfl

/-! ## What a word decodes to -/

/-- A word decodes to an instruction exactly when its direction is an operation of the register at its address. -/
theorem decodeWord_eq_instr {w : OpWord} {i : Instr} : decodeWord w = .instr i ↔
    ∃ r, Reg.ofAddr (opAddr w) = some r ∧
      if opIsWrite w then writeOp r (opData w) = some i else readOp r = some i := by
  unfold decodeWord
  cases opIsWrite w
  · cases hop : (Reg.ofAddr (opAddr w)).bind readOp <;> simp [← Option.bind_eq_some_iff, hop]
  · cases hop : (Reg.ofAddr (opAddr w)).bind (writeOp · (opData w)) <;> simp [← Option.bind_eq_some_iff, hop]

theorem decodeWord_eq_reservedWrite {w : OpWord} : decodeWord w = .reservedWrite (opAddr w) (opData w) ↔
    opIsWrite w = true ∧ ∀ r, Reg.ofAddr (opAddr w) = some r → writeOp r (opData w) = none := by
  unfold decodeWord
  cases opIsWrite w
  · cases hop : (Reg.ofAddr (opAddr w)).bind readOp <;> simp [hop]
  · cases hop : (Reg.ofAddr (opAddr w)).bind (writeOp · (opData w)) <;> simp [← Option.bind_eq_none_iff, hop]

theorem decodeWord_eq_reservedRead {w : OpWord} : decodeWord w = .reservedRead (opAddr w) ↔
    opIsWrite w = false ∧ ∀ r, Reg.ofAddr (opAddr w) = some r → readOp r = none := by
  unfold decodeWord
  cases opIsWrite w
  · cases hop : (Reg.ofAddr (opAddr w)).bind readOp <;> simp [← Option.bind_eq_none_iff, hop]
  · cases hop : (Reg.ofAddr (opAddr w)).bind (writeOp · (opData w)) <;> simp [hop]

/-- Settles O3: a direction is no operation of a register exactly when the access column forbids it. -/
theorem reservedIsWhatTheRegisterMapForbids : Obligations.ReservedIsWhatTheRegisterMapForbids :=
  ⟨ofAddr_addr, fun _ =>
    ⟨by simp only [decodeWord_eq_reservedWrite, writeOp_eq_none],
      by simp only [decodeWord_eq_reservedRead, readOp_eq_none]⟩⟩

/-- Settles O5: the register at the word's address gives the canonical word, to compare with the word's own fields. -/
theorem encodeOfDecodedWordIsItsCanonicalForm : Obligations.EncodeOfDecodedWordIsItsCanonicalForm := by
  intro w i h
  obtain ⟨r, hr, hop⟩ := decodeWord_eq_instr.1 h
  have hfields := opWord_eq_fields w
  have hmasked := opWord_and_selectMask w
  rw [eq_addr_of_ofAddr hr] at hfields hmasked
  cases hw : opIsWrite w <;> rw [hw] at hop hfields hmasked
  case false =>
    exact ⟨_, encode_of_readOp hop, fun _ => hmasked.symm, fun hne => absurd (asmOperand_of_readOp hop) hne⟩
  case true =>
    refine ⟨_, encode_of_writeOp hop, fun hnone => ?_, fun hne => ?_⟩
    · rw [hnone]; exact hmasked.symm
    · rw [(asmOperand_of_writeOp hop).resolve_left hne]; exact hfields.symm

/-! ## The thirteen operations and the nineteen reserved accesses -/

/-- Settles O2: each value of the five selecting bits is looked up in the register map, whatever the data byte. -/
theorem operationSelectedByDirectionAndAddress : Obligations.OperationSelectedByDirectionAndAddress := by
  intro d
  simp only [decodeWord_append, List.forall_mem_cons]
  exact ⟨rfl, rfl, rfl, rfl, rfl, rfl, rfl, rfl, rfl, rfl, rfl, rfl, rfl,
    ⟨rfl, rfl, rfl, rfl, rfl, rfl, rfl, rfl, rfl, rfl, List.forall_mem_nil _⟩,
    rfl, rfl, rfl, rfl, rfl, rfl, rfl, rfl, rfl, List.forall_mem_nil _⟩

/-- A step under a word is the effect of what the word decodes to. -/
theorem step_word {s : State} {w : OpWord} {d : Decoded} {rest : List HostEvent}
    (hev : s.pending = wordEvent w :: rest) (hd : decodeWord w = d) :
    step s = onPort (effectOfDecoded d) { s with pending := rest } :=
  (step_cons hev).trans (hd ▸ rfl)

/-- Settles O39: the nineteen words decode to reserved accesses, whose effects leave the block. -/
theorem reservedAccessesChangeNothing : Obligations.ReservedAccessesChangeNothing := by
  intro s d rest
  obtain ⟨-, -, -, -, -, -, -, -, -, -, -, -, -, hwrite, hread⟩ := operationSelectedByDirectionAndAddress d
  exact ⟨fun wa hwa hev => (step_word hev (hwrite wa hwa)).trans (onPort_of_leave rfl),
    fun wa hwa hev => (step_word hev (hread wa hwa)).trans (onPort_of_answer rfl)⟩

/-- Settles O38: the step is the block's step under the next event, taken off at the port. -/
theorem stepRunsTheNextEvent : Obligations.StepRunsTheNextEvent := by
  refine fun s rest => ⟨fun c i hev hd => ?_, fun c r hev hd => ?_, fun hev => ?_, step_nil⟩
  · have heff : blockStep (.present c) = effectOf i := funext (blockStep_present hd)
    rw [step_cons hev, heff, exec_eq_onPort]
  · exact (step_cons hev).trans (onPort_of_refused (by simp only [blockStep, hd]))
  · exact (step_cons hev).trans (onPort_of_leave rfl)

end Sys2Proof.Machine
end

section
/-! The command frames (`30_encoding.md` R67 to R71): a frame is the checksummed bytes of a command code and a payload,
the decoder and the encoder agree on them, and so on every code (O1, O4, O6, O7). -/

namespace Sys2Proof.Machine

/-! ## The fields of a frame -/

/-- The fields of a frame, read off again; the length byte counts the whole frame (R69). -/
theorem decodeFrame_withChecksum {c : Byte} {p : List Byte} (h : p.length ≤ Config.maxPayload) :
    decodeFrame (withChecksum (frameHead c p)) = decodeCommand c p := by
  have hlen : (p.length + 6) % 256 = p.length + 6 := Nat.mod_eq_of_lt (by simp only [Config.maxPayload] at h; omega)
  simp [decodeFrame, withChecksum, frameHead, Config.overhead, hlen]

/-- A frame that decodes is the one its command byte and its payload make (R68, R69). -/
theorem eq_withChecksum_of_decodeFrame {f : List Byte} {i : Instr} (h : decodeFrame f = .ok i) :
    ∃ c p, f = withChecksum (frameHead c p) ∧ decodeCommand c p = .ok i := by
  unfold decodeFrame at h
  split at h
  case h_2 => cases h
  case h_1 sync addr len c rest =>
    dsimp only at h
    split_ifs at h with hshort hsync haddr hlen hsum
    simp only [Decidable.not_not] at hsync haddr hlen hsum
    subst hsync haddr
    have hlenByte : len = BitVec.ofNat 8 ((rest.take (rest.length - 2)).length + Config.overhead) := by
      rw [List.length_take, Config.overhead, show min (rest.length - 2) rest.length + 6 = len.toNat by omega,
        BitVec.ofNat_toNat, BitVec.setWidth_eq]
    refine ⟨c, rest.take (rest.length - 2), ?_, h⟩
    have hrest := List.take_append_drop (rest.length - 2) rest
    rw [hsum] at hrest
    rw [withChecksum, frameHead, ← hlenByte]
    exact congrArg ([Config.sync, Config.addr, len, c] ++ ·) hrest.symm

/-! ## The command code map -/

/-- A chain of tests of the command byte decodes as the map says if the tested row and the rest of the chain do. -/
theorem commandOf_of_ite {c k : Byte} {p : List Byte} {i : Instr} {row rest : Except Reject Instr}
    (hrow : c = k → row = .ok i → commandOf i = some (c, p)) (hrest : rest = .ok i → commandOf i = some (c, p)) :
    (if c = k then row else rest) = .ok i → commandOf i = some (c, p) := by
  split_ifs with hc
  exacts [hrow hc, hrest]

theorem commandOf_of_plainCommand {c k : Byte} {i j : Instr} {p : List Byte} (hj : commandOf j = some (k, []))
    (hc : c = k) (h : plainCommand c j p = .ok i) : commandOf i = some (c, p) := by
  unfold plainCommand at h
  split_ifs at h with hp
  cases h
  rw [hj, hp, hc]

theorem commandOf_of_maskCommand {c k : Byte} {i : Instr} {j : Byte → Instr} {shape : Byte → List Byte}
    {p : List Byte} (hj : ∀ m, commandOf (j m) = some (k, shape m)) (hc : c = k)
    (h : maskCommand c j shape p = .ok i) : commandOf i = some (c, p) := by
  unfold maskCommand at h
  split at h
  · cases h
  · split_ifs at h with hp
    cases h
    rw [hj, ← hp, hc]

/-- A row of the code map, read back from its command byte and payload (R71). -/
theorem commandOf_of_decodeCommand {c : Byte} {p : List Byte} {i : Instr} :
    decodeCommand c p = .ok i → commandOf i = some (c, p) := by
  unfold decodeCommand
  refine commandOf_of_ite (commandOf_of_plainCommand rfl) ?_
  refine commandOf_of_ite (commandOf_of_plainCommand rfl) ?_
  refine commandOf_of_ite (commandOf_of_maskCommand fun _ => rfl) ?_
  refine commandOf_of_ite (commandOf_of_plainCommand rfl) ?_
  refine commandOf_of_ite (commandOf_of_maskCommand fun _ => rfl) ?_
  iterate 5 refine commandOf_of_ite (commandOf_of_plainCommand rfl) ?_
  exact fun h => nomatch h

theorem decodeCommand_of_commandOf {c : Byte} {p : List Byte} {i : Instr} (h : commandOf i = some (c, p)) :
    decodeCommand c p = .ok i := by
  cases i <;> cases h
  case cSecurity m => simp [decodeCommand, maskCommand, securityPayload]
  case cEnable m => simp [decodeCommand, maskCommand, enablePayload]
  all_goals rfl

/-- A payload is empty, or of the one length its command's mask stands in (R70). -/
theorem payload_length_of_commandOf {i : Instr} {c : Byte} {p : List Byte} (h : commandOf i = some (c, p)) :
    p.length = 0 ∨ (c = 0x32#8 ∧ p.length = 3) ∨ (c = 0x34#8 ∧ p.length = 6) := by
  cases i <;> cases h <;> simp [securityPayload, enablePayload]

/-! ## The encoder -/

/-- A command is encoded as the frame of its code and payload (R71, R74). -/
theorem encode_of_commandOf {i : Instr} {c : Byte} {p : List Byte} (h : commandOf i = some (c, p)) :
    encode i = .frame (withChecksum (frameHead c p)) := by
  cases i <;> cases h
  case cSecurity m | cEnable m => rfl
  all_goals simp [encode, frameHead, withChecksum, crc16, crcByte, crcBits, crcBit, crcLow, crcHigh, Config.sync,
    Config.addr, Config.overhead, Config.crcInit, Config.poly]

/-- A bus operation is encoded as a word, which decodes to it (R62). -/
theorem encode_of_commandOf_eq_none {i : Instr} (h : commandOf i = none) :
    ∃ w, encode i = .word w ∧ decodeWord w = .instr i := by
  cases i with
  | crcUpd d | plPush d | build d | wrPtr d => exact ⟨_, rfl, decodeWord_append _ d⟩
  | crcInit | rdCrcL | rdCrcH | plClr | rdPlen | rdLen | rdPtr | rdFrb | rdStat => exact ⟨_, rfl, rfl⟩
  | cReset | cStatus | cSecurity | cPoll | cEnable | cStack | cReturn | cIdent | cAck | cNsc => cases h

theorem eq_withChecksum_of_encode {i : Instr} {f : List Byte} (h : encode i = .frame f) :
    ∃ c p, commandOf i = some (c, p) ∧ f = withChecksum (frameHead c p) := by
  cases hcmd : commandOf i with
  | none =>
    obtain ⟨w, hw, -⟩ := encode_of_commandOf_eq_none hcmd
    cases hw.symm.trans h
  | some cp =>
    obtain ⟨c, p⟩ := cp
    exact ⟨c, p, rfl, Code.frame.inj (h.symm.trans (encode_of_commandOf hcmd))⟩

theorem encode_wf : ∀ i : Instr, (encode i).wf = true
  | .cReset => Laws.EncodesWellFormed.cReset
  | .cStatus => Laws.EncodesWellFormed.cStatus
  | .cSecurity m => Laws.EncodesWellFormed.cSecurity m
  | .cPoll => Laws.EncodesWellFormed.cPoll
  | .cEnable m => Laws.EncodesWellFormed.cEnable m
  | .cStack => Laws.EncodesWellFormed.cStack
  | .cReturn => Laws.EncodesWellFormed.cReturn
  | .cIdent => Laws.EncodesWellFormed.cIdent
  | .cAck => Laws.EncodesWellFormed.cAck
  | .cNsc => Laws.EncodesWellFormed.cNsc
  | .crcInit | .crcUpd _ | .rdCrcL | .rdCrcH | .plClr | .plPush _ | .rdPlen | .build _ | .rdLen | .rdPtr | .wrPtr _
  | .rdFrb | .rdStat => rfl

/-! ## The decoder and the encoder agree -/

theorem decodeFrame_eq_ok_iff_encode {f : List Byte} {i : Instr} :
    decodeFrame f = .ok i ↔ encode i = .frame f := by
  constructor
  · intro h
    obtain ⟨c, p, rfl, hcmd⟩ := eq_withChecksum_of_decodeFrame h
    exact encode_of_commandOf (commandOf_of_decodeCommand hcmd)
  · intro h
    obtain ⟨c, p, hcmd, rfl⟩ := eq_withChecksum_of_encode h
    rw [decodeFrame_withChecksum (length_le_of_commandOf hcmd), decodeCommand_of_commandOf hcmd]

/-- Settles O6: decoding a frame and encoding a command are inverse, and every encoding is well formed. -/
theorem frameDecodesExactlyToItsCommand : Obligations.FrameDecodesExactlyToItsCommand :=
  fun _ i => ⟨decodeFrame_eq_ok_iff_encode, fun h => decodeFrame_eq_ok_iff_encode.1 h ▸ encode_wf i⟩

/-- Settles O4: a bus operation by its word, a command by its frame. -/
theorem decodeOfEncodeIsTheInstruction : Obligations.DecodeOfEncodeIsTheInstruction := by
  intro i
  cases hcmd : commandOf i with
  | none =>
    obtain ⟨w, henc, hdec⟩ := encode_of_commandOf_eq_none hcmd
    rw [henc, decode, hdec]
  | some cp =>
    have henc := encode_of_commandOf hcmd
    simp only [henc, decode, decodeFrame_eq_ok_iff_encode.2 henc]

/-- Settles O7: a code map row's payload is short enough for `build_frame`, whose frame the encoder gives. -/
theorem commandCodeMapAndFrames : Obligations.CommandCodeMapAndFrames := by
  refine ⟨fun m => ⟨rfl, rfl, rfl, rfl, rfl, rfl, rfl, rfl, rfl, rfl⟩, fun i c p hcmd => ?_⟩
  refine ⟨_, buildFrame_of_le (length_le_of_commandOf hcmd), encode_of_commandOf hcmd, ?_⟩
  simpa using payload_length_of_commandOf hcmd

/-- Settles O1: the words are looked up, the frames are encodings. -/
theorem knownCodesDecode : Obligations.KnownCodesDecode := by
  have henable : encode (.cEnable 0x7C#8) = .frame [0x02#8, 0x03#8, 0x0C#8, 0x34#8, 0x00#8, 0x00#8, 0x7C#8, 0x00#8,
      0x00#8, 0x00#8, 0x66#8, 0xC1#8] := by
    simp [encode, withChecksum, crc16, crcByte, crcBits, crcBit, crcLow, crcHigh, Config.crcInit, Config.poly]
  exact ⟨rfl, rfl, rfl, rfl, rfl, rfl, rfl, rfl, rfl, decodeOfEncodeIsTheInstruction .cReset,
    henable ▸ decodeOfEncodeIsTheInstruction _⟩

end Sys2Proof.Machine
end

section
/-! The bit step and the byte step (`40_crc_engine.md` R80, R81): bit by bit, linear over XOR, reversible, and the
table form of the byte step (O8, O9, O11, O12). -/

namespace Sys2Proof.Machine

/-! ## The bit step -/

/-- Each bit comes from the one above it; where the polynomial has a bit, the bit shifted out is XORed in. -/
theorem getLsbD_crcBit (v : Crc) (i : Nat) :
    (crcBit v).getLsbD i = (v.getLsbD (i + 1) ^^ (v.getLsbD 0 && Config.poly.getLsbD i)) := by
  unfold crcBit
  cases v.getLsbD 0 <;> simp [Nat.add_comm]

theorem crcBit_xor (v w : Crc) : crcBit (v ^^^ w) = crcBit v ^^^ crcBit w := by
  apply BitVec.eq_of_getLsbD_eq
  intro i _
  simp only [BitVec.getLsbD_xor, getLsbD_crcBit, Bool.and_xor_distrib_right, Bool.xor_assoc,
    Bool.xor_left_comm]

theorem crcBit_of_even {v : Crc} (h : v.getLsbD 0 = false) : crcBit v = v >>> 1 := by
  simp only [crcBit, h, Bool.false_eq_true, if_false]

/-- Settles O8: the bits of the polynomial are 15, 10 and 3. -/
theorem crcBitIsShiftAndConditionalXor : Obligations.CrcBitIsShiftAndConditionalXor := by
  intro v
  have hpoly : ∀ i < 15, i ≠ 10 → i ≠ 3 → Config.poly.getLsbD i = false := by decide
  simp only [getLsbD_crcBit]
  refine ⟨rfl, ?_, ?_, ?_, fun i hi h10 h3 => ?_⟩
  · simp [Config.poly]
  · simp [Config.poly]
  · simp [Config.poly]
  · simp [hpoly i hi h10 h3]

/-- The value before a bit step: bit 15 of the result is the bit shifted out (R88 item 1). -/
def crcBitInv (r : Crc) : Crc :=
  ((r ^^^ (if r.getLsbD 15 = true then 0x8408#16 else 0x0000#16)) <<< 1)
    ||| (if r.getLsbD 15 = true then 0x0001#16 else 0x0000#16)

theorem getLsbD_zero_crcBitInv (r : Crc) : (crcBitInv r).getLsbD 0 = r.getLsbD 15 := by
  unfold crcBitInv
  cases r.getLsbD 15 <;> simp

theorem getLsbD_succ_crcBitInv (r : Crc) {i : Nat} (h : i < 15) :
    (crcBitInv r).getLsbD (i + 1) = (r.getLsbD i ^^ (r.getLsbD 15 && Config.poly.getLsbD i)) := by
  unfold crcBitInv
  cases r.getLsbD 15 <;> simp [Nat.succ_lt_succ h, BitVec.getLsbD_eq_getElem (Nat.lt_succ_of_lt h), Config.poly]

theorem crcBit_crcBitInv (r : Crc) : crcBit (crcBitInv r) = r := by
  apply BitVec.eq_of_getLsbD_eq
  intro i hi
  rw [getLsbD_crcBit, getLsbD_zero_crcBitInv]
  rcases Nat.lt_or_ge i 15 with h | h
  · simp [getLsbD_succ_crcBitInv r h]
  · obtain rfl : i = 15 := by omega
    simp [Config.poly]

theorem crcBit_bijective : Function.Bijective crcBit :=
  Function.Surjective.bijective_of_finite fun r => ⟨crcBitInv r, crcBit_crcBitInv r⟩

/-! ## Several bit steps -/

theorem crcBits_xor (k : Nat) (v w : Crc) : crcBits k (v ^^^ w) = crcBits k v ^^^ crcBits k w := by
  induction k generalizing v w with
  | zero => rfl
  | succ k ih => simp only [crcBits, crcBit_xor, ih]

theorem crcBits_bijective (k : Nat) : Function.Bijective (crcBits k) := by
  induction k with
  | zero => exact Function.bijective_id
  | succ k ih => exact ih.comp crcBit_bijective

/-- While only zeros are shifted out, bit steps are a shift. -/
theorem crcBits_of_low_zero {k : Nat} {v : Crc} (h : ∀ i < k, v.getLsbD i = false) : crcBits k v = v >>> k := by
  induction k generalizing v with
  | zero => simp [crcBits]
  | succ k ih =>
    have hshift : ∀ i < k, (v >>> 1).getLsbD i = false := fun i hi => by
      simpa [Nat.add_comm] using h (i + 1) (by omega)
    rw [crcBits, crcBit_of_even (h 0 (by omega)), ih hshift, ← BitVec.shiftRight_add, Nat.add_comm]

/-! ## The byte step -/

theorem crcByte_xor (v w : Crc) (a b : Byte) : crcByte (v ^^^ w) (a ^^^ b) = crcByte v a ^^^ crcByte w b := by
  simp only [crcByte, ← crcBits_xor, BitVec.setWidth_xor]
  congr 1
  ac_rfl

@[simp] theorem crcByte_zero : crcByte 0x0000#16 0x00#8 = 0x0000#16 := by decide +kernel

theorem crcByte_bijective (b : Byte) : Function.Bijective fun v : Crc => crcByte v b :=
  (crcBits_bijective 8).comp (Function.Involutive.bijective fun v => by simp)

theorem crcByte_injective (v : Crc) : Function.Injective fun b : Byte => crcByte v b := by
  intro a b h
  have hext : a.setWidth 16 = b.setWidth 16 := (BitVec.xor_right_inj v).1 ((crcBits_bijective 8).1 h)
  simpa using congrArg (BitVec.setWidth 8) hext

theorem setWidth_ushiftRight_byte (b : Byte) : b.setWidth 16 >>> 8 = 0x0000#16 := by
  apply BitVec.eq_of_getLsbD_eq
  intro i _
  simp

/-- Fed its own low byte, the running value is shifted down: only zeros are shifted out. -/
theorem crcByte_crcLow (v : Crc) : crcByte v (crcLow v) = v >>> 8 := by
  have hzero : ∀ i < 8, (v ^^^ (crcLow v).setWidth 16).getLsbD i = false := fun i hi => by
    simp [crcLow, hi, Nat.lt_trans hi]
  rw [crcByte, crcBits_of_low_zero hzero, BitVec.ushiftRight_xor_distrib, setWidth_ushiftRight_byte, BitVec.xor_zero]

theorem crcByte_eq_crcByte_xor_zero (v : Crc) (b : Byte) : crcByte v b = crcByte (v ^^^ b.setWidth 16) 0x00#8 := by
  simp [crcByte]

/-- The low byte alone meets the polynomial; the high byte is shifted down (R88 item 3). -/
theorem crcByte_eq_table (v : Crc) (b : Byte) :
    crcByte v b = (v >>> 8) ^^^ crcByte 0x0000#16 (crcLow (v ^^^ b.setWidth 16)) := by
  have hsplit : ∀ x : Crc, crcByte x 0x00#8 = (x >>> 8) ^^^ crcByte 0x0000#16 (crcLow x) := fun x => by
    rw [← crcByte_crcLow, ← crcByte_xor, BitVec.xor_zero, BitVec.xor_self]
  rw [crcByte_eq_crcByte_xor_zero, hsplit, BitVec.ushiftRight_xor_distrib, setWidth_ushiftRight_byte,
    BitVec.xor_zero]

/-- Settles O9: zero-extension is eight zero bits above. -/
theorem crcByteIsOneXorAndEightBitSteps : Obligations.CrcByteIsOneXorAndEightBitSteps := by
  intro v b
  rw [crcByte, BitVec.setWidth_eq_append (by decide)]
  rfl

/-- Settles O11: the bit step has a right inverse on a finite type, and the byte step is an XOR and bit steps. -/
theorem crcStepsLoseNothing : Obligations.CrcStepsLoseNothing :=
  ⟨crcBit_crcBitInv, crcByte_bijective, crcByte_injective⟩

/-- Settles O12: the table is the byte step from 0. -/
theorem crcByteByTable : Obligations.CrcByteByTable :=
  crcByte_eq_table

end Sys2Proof.Machine
end

section
/-! The checksum of a sequence (`40_crc_engine.md` R82, R88): the running value as a fold, linear over XOR, blind to
leading zeros, with residue 0 (O10, O13, O14). -/

namespace Sys2Proof.Machine

theorem crcRun_eq_foldl (v : Crc) (bs : List Byte) : crcRun v bs = bs.foldl crcByte v := by
  induction bs generalizing v with
  | nil => rfl
  | cons b bs ih => exact ih (crcByte v b)

theorem crcRun_xor (v w : Crc) {xs ys : List Byte} (h : xs.length = ys.length) :
    crcRun (v ^^^ w) (List.zipWith (· ^^^ ·) xs ys) = crcRun v xs ^^^ crcRun w ys := by
  induction xs generalizing v w ys with
  | nil => cases ys <;> simp_all
  | cons x xs ih =>
    cases ys with
    | nil => simp at h
    | cons y ys =>
      rw [List.zipWith_cons_cons, crcRun_cons, crcByte_xor]
      exact ih _ _ (Nat.succ.inj h)

theorem zipWith_xor_zeros (xs : List Byte) :
    List.zipWith (· ^^^ ·) xs (List.replicate xs.length 0x00#8) = xs := by
  induction xs with
  | nil => rfl
  | cons x xs ih => simp [List.replicate_succ, ih]

theorem crc16_zeros (k : Nat) : crc16 (List.replicate k 0x00#8) = 0x0000#16 := by
  induction k with
  | zero => rfl
  | succ k ih => rw [List.replicate_succ', crc16_append, ih, crcRun_cons, crcByte_zero, crcRun_nil]

theorem crcHigh_eq_crcLow_ushiftRight (v : Crc) : crcHigh v = crcLow (v >>> 8) := by
  apply BitVec.eq_of_getLsbD_eq
  intro i hi
  simp [crcHigh, crcLow]

/-- Fed its own two bytes, low byte first, the running value is shifted out (R88 item 6). -/
theorem crcRun_own_bytes (v : Crc) : crcRun v [crcLow v, crcHigh v] = 0x0000#16 := by
  rw [crcRun_cons, crcByte_crcLow, crcHigh_eq_crcLow_ushiftRight, crcRun_cons, crcByte_crcLow, crcRun_nil,
    ← BitVec.shiftRight_add]
  exact BitVec.ushiftRight_eq_zero (Nat.le_refl 16)

/-- Settles O10: the running value is a fold, so it goes on from what came before. -/
theorem crcOfSequenceIsRunningValueFromZero : Obligations.CrcOfSequenceIsRunningValueFromZero :=
  ⟨rfl, fun bs b => crc16_append bs [b], crcRun_eq_foldl _, by decide +kernel⟩

/-- Settles O13: each byte step is linear; a start value is XORed with the start value 0 of `crc16`. -/
theorem checksumIsLinearOverXor : Obligations.ChecksumIsLinearOverXor := by
  refine ⟨fun xs ys h => crcRun_xor 0x0000#16 0x0000#16 h, fun v xs => ?_⟩
  have hsplit := crcRun_xor 0x0000#16 v (List.length_replicate (n := xs.length) (a := 0x00#8)).symm
  rwa [zipWith_xor_zeros, BitVec.zero_xor] at hsplit

/-- Settles O14: zeros keep the start value 0, and a checksum's own bytes shift it out. -/
theorem checksumLeadingZerosAndResidue : Obligations.ChecksumLeadingZerosAndResidue := by
  refine ⟨fun k bs => ?_, fun bs => ?_⟩
  · rw [crc16_append, crc16_zeros]; rfl
  · rw [crc16_append]; exact crcRun_own_bytes _

end Sys2Proof.Machine
end

section
/-! The CRC engine's operations (`40_crc_engine.md` R84 to R87) and the checksum transaction made of them (R91), with
words that do not write `CRC` put in anywhere (O17, O18, O19, O20). -/

namespace Sys2Proof.Machine

/-! ## The four operations -/

theorem exec_crcInit (s : State) : exec .crcInit s = .next { s with crc := 0x0000#16 } :=
  (exec_eq_onPort .crcInit s).trans (onPort_of_leave rfl)

theorem exec_crcUpd (b : Byte) (s : State) : exec (.crcUpd b) s = .next { s with crc := crcByte s.crc b } :=
  (exec_eq_onPort (.crcUpd b) s).trans (onPort_of_leave rfl)

theorem exec_rdCrcL (s : State) :
    exec .rdCrcL s = .next { s with returned := s.returned ++ [crcLow s.crc] } :=
  (exec_eq_onPort .rdCrcL s).trans (onPort_of_answer rfl)

theorem exec_rdCrcH (s : State) :
    exec .rdCrcH s = .next { s with returned := s.returned ++ [crcHigh s.crc] } :=
  (exec_eq_onPort .rdCrcH s).trans (onPort_of_answer rfl)

/-- Settles O17: any data byte selects the strobe, whose effect is on `CRC` alone. -/
theorem crcInitZeroesCrc : Obligations.CrcInitZeroesCrc := by
  refine ⟨fun d => ?_, rfl, exec_crcInit⟩
  obtain ⟨hcrcInit, -⟩ := operationSelectedByDirectionAndAddress d
  exact hcrcInit

theorem decodeWord_crcUpdWord (b : Byte) : decodeWord (0x11#5 ++ b) = .instr (.crcUpd b) := by
  obtain ⟨-, hcrcUpd, -⟩ := operationSelectedByDirectionAndAddress b
  exact hcrcUpd

/-- Settles O18: the data byte is the operand, and the effect is on `CRC` alone. -/
theorem crcUpdTakesTheByteStep : Obligations.CrcUpdTakesTheByteStep :=
  ⟨decodeWord_crcUpdWord, exec_crcUpd⟩

/-- Settles O19: a read answers a byte of `CRC` and leaves the block. -/
theorem crcReadsReturnItsTwoBytes : Obligations.CrcReadsReturnItsTwoBytes := by
  refine ⟨fun d => ?_, rfl, rfl, fun s => ⟨exec_rdCrcL s, exec_rdCrcH s⟩⟩
  obtain ⟨-, -, hrdCrcL, hrdCrcH, -⟩ := operationSelectedByDirectionAndAddress d
  exact ⟨hrdCrcL, hrdCrcH⟩

/-! ## The words of a transaction, one after another -/

theorem blockStep_crcUpdWord (v : Byte) (b : Block) :
    blockStep (wordEvent (writeWord 0x1#4 v)) b = effCrcUpd v b := by
  have hword : writeWord 0x1#4 v = 0x11#5 ++ v := rfl
  rw [blockStep_word, hword, decodeWord_crcUpdWord]
  rfl

theorem blockRun_crcUpdWords (bs : List Byte) (b : Block) :
    blockRun ((bs.map (writeWord 0x1#4)).map wordEvent) b = leave { b with crc := crcRun b.crc bs } := by
  induction bs generalizing b with
  | nil => rfl
  | cons v bs ih =>
    rw [List.map_cons, List.map_cons, blockRun_cons, blockStep_crcUpdWord, effCrcUpd, andThen_leave, ih]
    rfl

theorem blockRun_crc16Words (bs : List Byte) (b : Block) :
    blockRun ((crc16Words bs).map wordEvent) b =
      .next ⟨{ b with crc := crc16 bs }, [crcLow (crc16 bs), crcHigh (crc16 bs)]⟩ := by
  have hinit : blockStep (wordEvent (writeWord 0x0#4 0x00#8)) b = leave { b with crc := Config.crcInit } := rfl
  rw [crc16Words, List.cons_append, List.map_cons, blockRun_cons, hinit, andThen_leave, List.map_append,
    blockRun_append, blockRun_crcUpdWords, andThen_leave]
  rfl

/-! ## `CRC` under words put in -/

theorem crcUpdBytes_cons_of_crcUpd {w : OpWord} {v : Byte} (h : decodeWord w = .instr (.crcUpd v))
    (ws : List OpWord) : crcUpdBytes (w :: ws) = v :: crcUpdBytes ws := by
  simp only [crcUpdBytes, h]

theorem crcUpdBytes_cons_of_ne {w : OpWord} (h : ∀ v, decodeWord w ≠ .instr (.crcUpd v)) (ws : List OpWord) :
    crcUpdBytes (w :: ws) = crcUpdBytes ws := by
  rw [crcUpdBytes]
  split
  · next v hd => exact absurd hd (h v)
  all_goals rfl

theorem crcUpdBytes_eq_nil {ws : List OpWord} (h : ∀ w ∈ ws, ∀ v, decodeWord w ≠ .instr (.crcUpd v)) :
    crcUpdBytes ws = [] := by
  induction ws with
  | nil => rfl
  | cons w ws ih =>
    obtain ⟨hw, hws⟩ := List.forall_mem_cons.1 h
    rw [crcUpdBytes_cons_of_ne hw, ih hws]

/-- The words that keep `CRC` or feed it a byte: neither `CRCINIT` nor `BUILD`. -/
def FeedsOrKeepsCrc (w : OpWord) : Prop :=
  decodeWord w ≠ .instr .crcInit ∧ ∀ c, decodeWord w ≠ .instr (.build c)

/-- Only `CRCINIT`, `CRCUPD` and `BUILD` write `CRC` (`10_state.md` R21). -/
theorem blockStep_word_crc {w : OpWord} (hw : FeedsOrKeepsCrc w) (hupd : ∀ v, decodeWord w ≠ .instr (.crcUpd v))
    {b : Block} {r : Reply} (h : blockStep (wordEvent w) b = .next r) : r.block.crc = b.crc := by
  obtain ⟨hinit, hbuild⟩ := hw
  rcases blockStep_word_leaves h with hsame | ⟨i, hd, hleaves⟩
  · rw [hsame]
  generalize r.block = b' at hleaves
  cases hleaves with
  | crcInit => exact absurd hd hinit
  | crcUpd v => exact absurd hd (hupd v)
  | raised c | built c => exact absurd hd (hbuild c)
  | read | plClr | pushed | pushDropped | wrPtr | rdFrb => rfl

/-- A run leaves in `CRC` the running value over the bytes fed. -/
theorem blockRun_words_crc {ws : List OpWord} (hws : ∀ w ∈ ws, FeedsOrKeepsCrc w) {b : Block} {r : Reply}
    (h : blockRun (ws.map wordEvent) b = .next r) : r.block.crc = crcRun b.crc (crcUpdBytes ws) := by
  induction ws generalizing b r with
  | nil => exact congrArg (fun r => r.block.crc) (leave_eq_next.1 h)
  | cons w ws ih =>
    obtain ⟨hw, hws⟩ := List.forall_mem_cons.1 hws
    obtain ⟨r₁, r₂, hstep, hrun, rfl⟩ := andThen_eq_next.1 h
    have hcrc := ih hws hrun
    by_cases hupd : ∃ v, decodeWord w = .instr (.crcUpd v)
    · obtain ⟨v, hd⟩ := hupd
      rw [blockStep_word, hd] at hstep
      rw [crcUpdBytes_cons_of_crcUpd hd, crcRun_cons]
      exact hcrc.trans (by rw [leave_eq_next.1 hstep])
    · have hne := not_exists.1 hupd
      rw [crcUpdBytes_cons_of_ne hne, ← blockStep_word_crc hw hne hstep]
      exact hcrc

theorem runWords_crc {ws : List OpWord} (hws : ∀ w ∈ ws, FeedsOrKeepsCrc w) {s t : State}
    (h : runWords ws s = .next t) : t.crc = crcRun s.crc (crcUpdBytes ws) := by
  rw [runWords_eq_onPort] at h
  obtain ⟨r, hr, rfl⟩ := onPort_eq_next.1 h
  exact blockRun_words_crc hws hr

/-- The two reads, as words: the byte of `CRC` joins the record, the block stays. -/
theorem runWords_rdCrcL (s : State) :
    runWords [0x0200#13] s = .next { s with returned := s.returned ++ [crcLow s.crc] } := by
  rw [runWords_eq_onPort]
  exact onPort_of_answer rfl

theorem runWords_rdCrcH (s : State) :
    runWords [0x0300#13] s = .next { s with returned := s.returned ++ [crcHigh s.crc] } := by
  rw [runWords_eq_onPort]
  exact onPort_of_answer rfl

/-- After the start of a transaction, either way, `CRC` holds the checksum of the bytes fed. -/
theorem runWords_started_crc {start ws : List OpWord} {s t : State}
    (hstart : start = [0x1000#13] ∨ (start = [] ∧ s.crc = 0x0000#16)) (hws : ∀ w ∈ ws, FeedsOrKeepsCrc w)
    (h : runWords (start ++ ws) s = .next t) : t.crc = crc16 (crcUpdBytes ws) := by
  rcases hstart with rfl | ⟨rfl, hzero⟩
  · rw [runWords_eq_onPort] at h
    obtain ⟨r, hr, rfl⟩ := onPort_eq_next.1 h
    have hinit : blockStep (wordEvent 0x1000#13) s.toBlock = leave { s.toBlock with crc := Config.crcInit } := rfl
    rw [List.singleton_append, List.map_cons, blockRun_cons, hinit, andThen_leave] at hr
    exact blockRun_words_crc hws hr
  · rw [runWords_crc hws h, hzero]
    rfl

/-- Settles O20: the words put in keep `CRC`, so both reads see the checksum of the bytes fed. -/
theorem checksumTransaction : Obligations.ChecksumTransaction := by
  refine ⟨fun bs s => ⟨_, _, ?_, crcHigh_append_crcLow (crc16 bs)⟩, ?_⟩
  · exact (runWords_eq_onPort _ s).trans (onPort_of_next (blockRun_crc16Words bs s.toBlock))
  intro start ws us s t hstart hws hus hrun
  refine ⟨_, _, runWords_rdCrcL t, rfl, fun v hv => ⟨_, _, runWords_rdCrcH v, rfl, ?_⟩⟩
  have hnil : crcUpdBytes us = [] := crcUpdBytes_eq_nil fun w hw b hd => (hus w hw).1 (.inr ⟨b, hd⟩)
  have hkept : v.crc = t.crc := by
    rw [runWords_crc (fun w hw => ⟨fun hd => (hus w hw).1 (.inl hd), (hus w hw).2⟩) hv, hnil, crcRun_nil]
  rw [hkept, crcHigh_append_crcLow]
  exact runWords_started_crc hstart hws hrun

end Sys2Proof.Machine
end

section
/-! The frame that `build_frame` makes (`41_frame_assembler.md` R100 to R102), and what follows of its checksum and its
fields (R114) (O15, O16). -/

namespace Sys2Proof.Machine

theorem buildFrame_eq_some {c : Byte} {p f : List Byte} :
    buildFrame c p = some f ↔ p.length ≤ 249 ∧ withChecksum (frameHead c p) = f := by
  rcases Nat.lt_or_ge 249 p.length with h | h
  · simp [buildFrame_of_gt h, Nat.not_le.2 h]
  · simp [buildFrame_of_le h, h]

theorem buildFrame_eq_none {c : Byte} {p : List Byte} : buildFrame c p = none ↔ 249 < p.length := by
  rcases Nat.lt_or_ge 249 p.length with h | h
  · simp [buildFrame_of_gt h, h]
  · simp [buildFrame_of_le h, h]

theorem withChecksum_take (h : List Byte) : (withChecksum h).take h.length = h :=
  List.take_left

theorem withChecksum_drop (h : List Byte) :
    (withChecksum h).drop h.length = [crcLow (crc16 h), crcHigh (crc16 h)] :=
  List.drop_left

/-- The payload stands verbatim from offset 4 (R101). -/
theorem withChecksum_frameHead_payload (c : Byte) (p : List Byte) :
    ((withChecksum (frameHead c p)).drop 4).take p.length = p :=
  List.take_left

theorem withChecksum_frameHead_checksum (c : Byte) (p : List Byte) :
    (withChecksum (frameHead c p)).drop (p.length + 4) =
      [crcLow (crc16 (frameHead c p)), crcHigh (crc16 (frameHead c p))] := by
  rw [← frameHead_length c p, withChecksum_drop]

/-- Settles O15: the fields of a frame by their offsets; the length byte does not wrap up to 249 payload bytes. -/
theorem buildFrameLayout : Obligations.BuildFrameLayout := by
  refine fun c p => ⟨buildFrame_eq_none.2, fun h => ⟨_, crc16 (frameHead c p), buildFrame_of_le h, ?_⟩⟩
  have hhead : (withChecksum (frameHead c p)).length - 2 = (frameHead c p).length := by simp
  refine ⟨by simp, rfl, rfl, ?_, rfl, withChecksum_frameHead_payload c p, ?_, ?_, ?_⟩
  · have hlenByte : (withChecksum (frameHead c p))[2]? = some (BitVec.ofNat 8 (p.length + 6)) := rfl
    simp only [hlenByte, Option.map_some, BitVec.toNat_ofNat, withChecksum_length, frameHead_length,
      Option.some.injEq]
    omega
  · rw [hhead, withChecksum_take]
  · rw [hhead, ← List.head?_drop, withChecksum_drop]
    rfl
  · rw [show (withChecksum (frameHead c p)).length - 1 = (frameHead c p).length + 1 by simp,
      ← List.getElem?_drop, withChecksum_drop]
    rfl

theorem crc16_withChecksum (h : List Byte) : crc16 (withChecksum h) = 0x0000#16 := by
  rw [withChecksum, crc16_append, crcRun_own_bytes]

/-- The command and the payload can be read back (R114 item 2). -/
theorem withChecksum_frameHead_inj {c c' : Byte} {p p' : List Byte}
    (h : withChecksum (frameHead c p) = withChecksum (frameHead c' p')) : c = c' ∧ p = p' := by
  have hhead : frameHead c p = frameHead c' p' := List.append_inj_left' h rfl
  simp only [frameHead, List.cons_append, List.nil_append, List.cons.injEq] at hhead
  obtain ⟨-, -, -, hc, hp⟩ := hhead
  exact ⟨hc, hp⟩

theorem crcRun_injective (bs : List Byte) : Function.Injective fun v : Crc => crcRun v bs := by
  induction bs with
  | nil => exact Function.injective_id
  | cons b bs ih => exact ih.comp (crcByte_bijective b).1

/-- The running value after the command differs, and the payload keeps it so (R88 items 1 and 2). -/
theorem eq_of_crc16_frameHead {c c' : Byte} {p : List Byte}
    (h : crc16 (frameHead c p) = crc16 (frameHead c' p)) : c = c' := by
  simp only [frameHead, crc16_append] at h
  exact crcByte_injective _ (crcRun_injective p h)

theorem eq_of_crcLow_of_crcHigh {v w : Crc} (hlow : crcLow v = crcLow w) (hhigh : crcHigh v = crcHigh w) : v = w := by
  rw [← crcHigh_append_crcLow v, hlow, hhigh, crcHigh_append_crcLow]

/-- Settles O16: the residue of a frame, its fields read back, and the checksum injective in the command. -/
theorem buildFrameConsequences : Obligations.BuildFrameConsequences := by
  intro c c' p p' f f' hf hf'
  obtain ⟨-, rfl⟩ := buildFrame_eq_some.1 hf
  obtain ⟨-, rfl⟩ := buildFrame_eq_some.1 hf'
  refine ⟨crc16_withChecksum _, withChecksum_frameHead_inj, ?_⟩
  rintro rfl hne
  refine ⟨rfl, ?_, fun h3 => hne (Option.some.inj h3), fun hsum => hne ?_⟩
  · rw [withChecksum_frameHead_payload, withChecksum_frameHead_payload]
  · simp only [withChecksum_frameHead_checksum, List.cons.injEq, and_true] at hsum
    obtain ⟨hlow, hhigh⟩ := hsum
    exact eq_of_crc16_frameHead (eq_of_crcLow_of_crcHigh hlow hhigh)

end Sys2Proof.Machine
end

section
/-! The operations of the frame assembler (`41_frame_assembler.md` R104 to R112), each from every state (O21, O22, O23,
O25, O26, O27, O28). -/

namespace Sys2Proof.Machine

/-! ## The port -/

theorem exec_of_leave {i : Instr} {s : State} {b : Block} (h : effectOf i s.toBlock = leave b) :
    exec i s = .next { s with toBlock := b } :=
  (exec_eq_onPort i s).trans (onPort_of_leave h)

theorem exec_of_answer {i : Instr} {s : State} {v : Byte} {b : Block} (h : effectOf i s.toBlock = answer v b) :
    exec i s = .next { s with toBlock := b, returned := s.returned ++ [v] } :=
  (exec_eq_onPort i s).trans (onPort_of_answer h)

/-! ## `PLCLR`, `PLPUSH` and `BUILD` -/

/-- Of what a bus operation can leave, only `PLCLR`'s has `TOOLARGE` cleared (`10_state.md` R25). -/
theorem eq_plClr_of_clears_toolarge {b b' : Block} {i : Instr} (h : BusOpLeaves b i b') (hset : b.toolarge = true)
    (hclear : b'.toolarge = false) : i = .plClr := by
  cases h with
  | plClr => rfl
  | raised c hp => cases hclear
  | read | crcInit | crcUpd | pushed | pushDropped | built | wrPtr | rdFrb => cases hset.symm.trans hclear

/-- Settles O21: `PLCLR` is one update of the block, and no other update clears `TOOLARGE`. -/
theorem plClrStartsANewPayload : Obligations.PlClrStartsANewPayload := by
  refine ⟨decodeWord_append 0x14#5, rfl, fun s => exec_of_leave rfl, fun i s t hi hexec hset hclear => ?_⟩
  rw [exec_eq_onPort] at hexec
  obtain ⟨r, hr, rfl⟩ := onPort_eq_next.1 hexec
  exact eq_plClr_of_clears_toolarge (effectOf_leaves hi hr) hset hclear

/-- Settles O22: the three branches of `PLPUSH`, told apart by `PLEN`. -/
theorem plPushAppendsOrDrops : Obligations.PlPushAppendsOrDrops := by
  refine ⟨decodeWord_append 0x15#5, fun b s => ?_⟩
  rcases Nat.lt_trichotomy s.plen.toNat 249 with hp | hp | hp
  · refine ⟨_, exec_of_leave (effPlPush_of_lt b hp), fun _ => ⟨?_, rfl, ?_, fun a ha => ?_⟩, fun h => ?_, fun h => ?_,
      rfl⟩
    · exact BitVec.toNat_add_of_lt (by simp; omega)
    · exact Memory.read_write_same s.fb _ b
    · exact Memory.read_write_ne s.fb b ha
    · omega
    · omega
  · exact ⟨_, exec_of_leave (effPlPush_of_eq b hp), fun h => absurd hp h.ne, fun _ => ⟨rfl, rfl⟩,
      fun h => absurd hp h.ne', rfl⟩
  · exact ⟨_, exec_of_leave (effPlPush_of_gt b hp), fun h => absurd hp h.asymm, fun h => absurd h hp.ne',
      fun _ => ⟨rfl, rfl⟩, rfl⟩

/-- Settles O23: `BUILD` raises, or makes the frame over the payload that stands in `FB`. -/
theorem buildMakesTheFrame : Obligations.BuildMakesTheFrame := by
  refine ⟨decodeWord_append 0x17#5, fun c s => ⟨fun hp => exec_of_leave (effBuild_of_gt c hp), fun p hp hpay => ?_⟩⟩
  have hplen : p.length = s.plen.toNat := ((fbLoad_eq_ok (by simp only [Config.maxFrame]; omega)).1 hpay).1
  obtain ⟨m, hbuild, hload, hkept, -⟩ := effBuild_of_le c hp hpay
  have hn : buildLength s.toBlock = s.plen.toNat + 6 := rfl
  have hhead : buildLength s.toBlock - 2 = (frameHead c p).length := by simp [hn, hplen]
  refine ⟨_, _, exec_of_leave hbuild, buildFrame_of_le (hplen.trans_le hp), hn, hload, ?_, ?_, rfl,
    fun a h4 hlow hhigh => hkept a h4 ?_ ?_, rfl⟩
  · rw [hhead, withChecksum_take]
  · exact Nat.mod_eq_of_lt (by omega)
  · simp only [hn] at hlow ⊢; omega
  · simp only [hn] at hhigh ⊢; omega

/-! ## The reads, and `WRPTR` -/

/-- R32 items 2 and 4: `LEN` is 0, or the frame's own length byte. -/
theorem Invariants.len_eq_lengthByte {b : Block} (h : Invariants b) :
    b.len = 0#8 ∨ (6 ≤ b.len.toNat ∧ b.fb.read 2 = some b.len) := by
  by_cases hlen : b.len = 0#8
  · exact .inl hlen
  · obtain ⟨-, -, hbyte, -⟩ := h.frameStands hlen
    exact .inr ⟨h.lenRange.resolve_left hlen, hbyte⟩

/-- Settles O25: three answers over the block as it was. -/
theorem registerReadsReturnTheRegister : Obligations.RegisterReadsReturnTheRegister :=
  ⟨fun d => ⟨decodeWord_append 0x06#5 d, decodeWord_append 0x08#5 d, decodeWord_append 0x09#5 d⟩, rfl, rfl, rfl,
    fun _ => ⟨exec_of_answer rfl, exec_of_answer rfl, exec_of_answer rfl,
      fun hinv => ⟨hinv.plenBound, hinv.len_eq_lengthByte⟩⟩⟩

/-- Settles O26: any pointer is stored, and at or beyond `LEN` it is outside the frame. -/
theorem wrPtrStoresAnyPointer : Obligations.WrPtrStoresAnyPointer :=
  ⟨decodeWord_append 0x19#5, fun p s => ⟨exec_of_leave rfl,
    fun h => exec_of_answer (s := { s with rp := p }) (effRdFrb_of_ge h)⟩⟩

theorem blockRun_rdFrbWords (n : Nat) (b : Block) :
    blockRun ((List.replicate n (readWord 0xA#4)).map wordEvent) b = readFrameBytes n b := by
  induction n generalizing b with
  | zero => rfl
  | succ n ih =>
    have hstep : blockStep (wordEvent (readWord 0xA#4)) b = effRdFrb b := rfl
    rw [List.replicate_succ, List.map_cons, blockRun_cons, hstep, readFrameBytes, funext ih]

/-- A whole frame read from its start. -/
theorem readFrameBytes_whole {b : Block} {f : List Byte} (hrp : b.rp = 0#8) (hf : fbLoad b.fb 0 b.len.toNat = .ok f) :
    readFrameBytes b.len.toNat b = .next ⟨{ b with rp := b.len }, f⟩ := by
  have hread := readFrameBytes_spec (n := b.len.toNat) (s := b) (f := f) (by simp [hrp]) (by simpa [hrp] using hf)
  simpa [hrp] using hread

/-- Settles O27: inside the frame, outside it, and `LEN` reads from its start. -/
theorem rdFrbReadsTheFrameInOrder : Obligations.RdFrbReadsTheFrameInOrder := by
  refine ⟨decodeWord_append 0x0A#5, rfl, fun s d hin hd => ?_, fun s hout => exec_of_answer (effRdFrb_of_ge hout),
    fun s f hrp hf => ?_⟩
  · have hlen := s.len.isLt
    exact ⟨_, exec_of_answer (effRdFrb_of_lt hin hd), rfl, BitVec.toNat_add_of_lt (by simp; omega)⟩
  · exact (runWords_eq_onPort _ s).trans
      (onPort_of_next ((blockRun_rdFrbWords _ _).trans (readFrameBytes_whole hrp hf)))

/-! ## `STATUS` -/

/-- `STATUS` bit by bit (R112). -/
theorem getLsbD_statusByte (b : Block) (i : Nat) : (statusByte b).getLsbD i =
    match i with
    | 0 => isValid b
    | 1 => b.toolarge
    | 2 => isPlFull b
    | _ => false := by
  unfold statusByte
  rw [BitVec.getLsbD_append, BitVec.getLsbD_append, BitVec.getLsbD_append]
  rcases i with _ | _ | _ | i <;> simp

theorem statusByte_eq {b : Block} {valid toolarge full : Bool} (hvalid : isValid b = valid)
    (htoo : b.toolarge = toolarge) (hfull : isPlFull b = full) :
    statusByte b = ((0#5 ++ BitVec.ofBool full) ++ BitVec.ofBool toolarge) ++ BitVec.ofBool valid := by
  rw [statusByte, hvalid, htoo, hfull]

/-- `STATUS` over a frame that stands. -/
theorem statusByte_of_frame {b : Block} (hlen : b.len ≠ 0#8) (hplen : b.plen.toNat ≤ 249) (htoo : b.toolarge = false) :
    statusByte b = 0x01#8 := by
  have hvalid : isValid b = true := by simp [isValid, hlen]
  have hne : b.plen ≠ Config.plenSaturated := fun h => by simp [h, Config.plenSaturated] at hplen
  have hfull : isPlFull b = false := by simp [isPlFull, hne]
  exact statusByte_eq hvalid htoo hfull

/-- `STATUS` after a `BUILD` has failed. -/
theorem statusByte_of_tooLarge {b : Block} (hlen : b.len = 0#8) (hplen : b.plen = 250#8) (htoo : b.toolarge = true) :
    statusByte b = 0x06#8 := by
  have hvalid : isValid b = false := by simp [isValid, hlen]
  have hfull : isPlFull b = true := by simp [isPlFull, hplen, Config.plenSaturated]
  exact statusByte_eq hvalid htoo hfull

/-- A frame stands only over a payload within bounds, and `TOOLARGE` only beside a full one (R32 items 3 and 5). -/
theorem Invariants.statusByte_mem {b : Block} (h : Invariants b) :
    statusByte b = 0x00#8 ∨ statusByte b = 0x01#8 ∨ statusByte b = 0x04#8 ∨ statusByte b = 0x06#8 := by
  by_cases hlen : b.len = 0#8
  · cases htoo : b.toolarge with
    | true =>
      obtain ⟨hplen, -⟩ := h.tooLargeState htoo
      exact .inr (.inr (.inr (statusByte_of_tooLarge hlen hplen htoo)))
    | false =>
      have hvalid : isValid b = false := by simp [isValid, hlen]
      cases hfull : isPlFull b with
      | true => exact .inr (.inr (.inl (statusByte_eq hvalid htoo hfull)))
      | false => exact .inl (statusByte_eq hvalid htoo hfull)
  · obtain ⟨hplen, -⟩ := h.lenOfPlen hlen
    exact .inr (.inl (statusByte_of_frame hlen hplen (h.toolarge_eq_false hplen)))

/-- Settles O28: an answer of `STATUS`, whose bits are the conditions. -/
theorem rdStatReturnsTheThreeConditions : Obligations.RdStatReturnsTheThreeConditions := by
  refine ⟨decodeWord_append 0x0B#5, rfl, fun s => ⟨_, exec_of_answer rfl, ?_, getLsbD_statusByte _ 1, ?_, fun i hi => ?_,
    fun hinv => hinv.statusByte_mem⟩⟩
  · rw [getLsbD_statusByte]; simp [isValid, bne, beq_eq_decide]
  · rw [getLsbD_statusByte]; simp [isPlFull, Config.plenSaturated, beq_eq_decide]
  · obtain ⟨j, rfl⟩ := Nat.exists_eq_add_of_le' hi
    exact getLsbD_statusByte _ (j + 3)

end Sys2Proof.Machine
end

section
/-! The pseudo-operation `FRAME` as words (`41_frame_assembler.md` R113): what it returns, for a payload that fits and for
one that is too large, and that `CRCINIT` and `CRCUPD` put in anywhere do not change it (O29, O30). -/

namespace Sys2Proof.Machine

/-! ## The words are the operations -/

theorem blockStep_plPushWord (v : Byte) : blockStep (wordEvent (writeWord 0x5#4 v)) = effPlPush v := by
  funext b
  have hword : decodeWord (writeWord 0x5#4 v) = .instr (.plPush v) := decodeWord_append 0x15#5 v
  rw [blockStep_word, hword]
  rfl

theorem blockStep_buildWord (c : Byte) : blockStep (wordEvent (writeWord 0x7#4 c)) = effBuild c := by
  funext b
  have hword : decodeWord (writeWord 0x7#4 c) = .instr (.build c) := decodeWord_append 0x17#5 c
  rw [blockStep_word, hword]
  rfl

theorem blockRun_plPushWords (p : List Byte) (b : Block) :
    blockRun ((p.map (writeWord 0x5#4)).map wordEvent) b = pushAll p b := by
  induction p generalizing b with
  | nil => rfl
  | cons v p ih => rw [List.map_cons, List.map_cons, blockRun_cons, blockStep_plPushWord, pushAll, funext ih]

/-- All but the leading `PLCLR` of the build part. -/
theorem blockRun_frameBuildWords_tail (c : Byte) (p : List Byte) (b : Block) :
    blockRun ((frameBuildWords c p).tail.map wordEvent) b = andThen (pushAll p b) (effBuild c) := by
  have hlast : blockRun ([writeWord 0x7#4 c].map wordEvent) = effBuild c := by
    funext b'
    rw [List.map_singleton, blockRun_cons, blockStep_buildWord]
    exact andThen_leave_right _
  rw [frameBuildWords, List.cons_append, List.tail_cons, List.map_append, blockRun_append, blockRun_plPushWords, hlast]

theorem blockRun_frameBuildWords (c : Byte) (p : List Byte) (b : Block) :
    blockRun ((frameBuildWords c p).map wordEvent) b = frameBuildPart c p b := by
  have hplClr : blockStep (wordEvent (writeWord 0x4#4 0x00#8)) b = leave (clearPayload b) := rfl
  have hsplit : frameBuildWords c p = writeWord 0x4#4 0x00#8 :: (frameBuildWords c p).tail := rfl
  rw [hsplit, List.map_cons, blockRun_cons, hplClr, andThen_leave, blockRun_frameBuildWords_tail, frameBuildPart,
    effPlClr, andThen_leave]

/-- The readout of a frame that stands: `STATUS`, `LEN`, and the frame from its start. -/
theorem blockRun_frameReadoutWords {b : Block} {f : List Byte} (hrp : b.rp = 0#8)
    (hf : fbLoad b.fb 0 b.len.toNat = .ok f) :
    blockRun ((frameReadoutWords b.len.toNat).map wordEvent) b =
      .next ⟨{ b with rp := b.len }, [statusByte b, b.len] ++ f⟩ := by
  have hstat : blockStep (wordEvent (readWord 0xB#4)) b = answer (statusByte b) b := rfl
  have hlen : blockStep (wordEvent (readWord 0x8#4)) b = answer b.len b := rfl
  rw [frameReadoutWords, List.map_cons, blockRun_cons, hstat, andThen_answer, List.map_cons, blockRun_cons, hlen,
    andThen_answer, blockRun_rdFrbWords, readFrameBytes_whole hrp hf]
  rfl

/-! ## What a sequence returns -/

/-- The words run to their end from `b`, and the bytes they return are `bs`. -/
def Returns (ws : List OpWord) (b : Block) (bs : List Byte) : Prop :=
  ∃ b', blockRun (ws.map wordEvent) b = .next ⟨b', bs⟩

theorem Returns.runWords {ws : List OpWord} {s : State} {bs : List Byte} (h : Returns ws s.toBlock bs) :
    ∃ t, runWords ws s = .next t ∧ t.returned = s.returned ++ bs := by
  obtain ⟨b', hrun⟩ := h
  exact ⟨_, (runWords_eq_onPort ws s).trans (onPort_of_next hrun), rfl⟩

/-- A first part that returns nothing, as every build part does, then a second. -/
theorem Returns.after_leave {ws us : List OpWord} {b b' : Block} {bs : List Byte}
    (h : blockRun (ws.map wordEvent) b = leave b') (hus : Returns us b' bs) : Returns (ws ++ us) b bs := by
  obtain ⟨b'', hrun⟩ := hus
  exact ⟨b'', by rw [List.map_append, blockRun_append, h, andThen_leave, hrun]⟩

theorem returns_frameReadoutWords {b : Block} {f : List Byte} (hrp : b.rp = 0#8)
    (hf : fbLoad b.fb 0 b.len.toNat = .ok f) :
    Returns (frameReadoutWords b.len.toNat) b ([statusByte b, b.len] ++ f) :=
  ⟨_, blockRun_frameReadoutWords hrp hf⟩

/-- The readout where no frame stands: `RDSTAT`, `RDLEN` and one `RDFRB`. -/
theorem returns_readout_of_len_eq_zero {b : Block} (hlen : b.len = 0#8) :
    Returns [0x0B00#13, 0x0800#13, 0x0A00#13] b [statusByte b, 0x00#8, 0x00#8] := by
  have hrdStat : blockStep (wordEvent 0x0B00#13) b = answer (statusByte b) b := rfl
  have hrdLen : blockStep (wordEvent 0x0800#13) b = answer 0x00#8 b := hlen ▸ rfl
  have hrdFrb : blockStep (wordEvent 0x0A00#13) b = answer 0x00#8 b := effRdFrb_of_ge (by simp [hlen])
  refine ⟨b, ?_⟩
  simp only [List.map_cons, blockRun_cons, hrdStat, hrdLen, hrdFrb, andThen_answer]
  rfl

/-- A payload that fits: the build part leaves its frame, which the readout returns. -/
theorem returns_frame (c : Byte) {p : List Byte} (h : p.length ≤ 249) (b : Block) :
    Returns (frameBuildWords c p ++ frameReadoutWords (p.length + 6)) b
      ([0x01#8, BitVec.ofNat 8 (p.length + 6)] ++ withChecksum (frameHead c p)) := by
  obtain ⟨m, hbuild, hload, -⟩ := frameBuildPart_spec c h b
  refine .after_leave ((blockRun_frameBuildWords c p b).trans hbuild) ?_
  have hplen : (BitVec.ofNat 8 p.length).toNat = p.length := Nat.mod_eq_of_lt (by omega)
  have hlen : (BitVec.ofNat 8 (p.length + 6)).toNat = p.length + 6 := Nat.mod_eq_of_lt (by omega)
  have hlen0 : BitVec.ofNat 8 (p.length + 6) ≠ 0#8 := fun h0 => by simp [h0] at hlen
  have hread := returns_frameReadoutWords (b := { b with
    fb := m, crc := crc16 (frameHead c p), plen := BitVec.ofNat 8 p.length,
    len := BitVec.ofNat 8 (p.length + 6), rp := 0#8, toolarge := false }) rfl (by simp only [hlen]; exact hload)
  rwa [statusByte_of_frame hlen0 (by simpa only [hplen]) rfl, hlen] at hread

/-- Beyond 249 pushes `PLEN` is 250 and the `BUILD` raises FrameTooLarge. -/
theorem frameBuildPart_of_gt (c : Byte) {p : List Byte} (h : 249 < p.length) (b : Block) :
    ∃ m : Memory, frameBuildPart c p b =
      leave { b with fb := m, plen := 250#8, len := 0#8, rp := 0#8, toolarge := true } := by
  obtain ⟨m, hpush, -⟩ := pushAll_spec p (s := clearPayload b) (by simp) rfl
  have hsaturated : min ((clearPayload b).plen.toNat + p.length) 250 = 250 := by simp; omega
  rw [hsaturated] at hpush
  have hover : Config.maxPayload < (250#8 : Byte).toNat := by decide
  refine ⟨m, ?_⟩
  rw [frameBuildPart, effPlClr, andThen_leave, hpush, andThen_leave]
  exact effBuild_of_gt c hover

theorem returns_tooLarge (c : Byte) {p : List Byte} (h : 249 < p.length) (b : Block) :
    Returns (frameBuildWords c p ++ [0x0B00#13, 0x0800#13, 0x0A00#13]) b [0x06#8, 0x00#8, 0x00#8] := by
  obtain ⟨m, hbuild⟩ := frameBuildPart_of_gt c h b
  refine .after_leave ((blockRun_frameBuildWords c p b).trans hbuild) ?_
  have hread := returns_readout_of_len_eq_zero (b := { b with
    fb := m, plen := 250#8, len := 0#8, rp := 0#8, toolarge := true }) rfl
  rwa [statusByte_of_tooLarge rfl rfl rfl] at hread

/-- `PLCLR` changes nothing where the payload is empty, no frame stands and `TOOLARGE` is clear. -/
theorem clearPayload_eq_self {b : Block} (hplen : b.plen = 0#8) (hlen : b.len = 0#8) (htoo : b.toolarge = false) :
    clearPayload b = b := by
  cases b
  subst hplen hlen htoo
  rfl

/-- Settles O29: the words are the operations, whose replies are known. -/
theorem frameTransaction : Obligations.FrameTransaction := by
  refine fun c p s => ⟨fun f hf => ?_, fun hf => ?_, fun hplen hlen htoo => ?_⟩
  · obtain ⟨hp, rfl⟩ := buildFrame_eq_some.1 hf
    refine ⟨hp, ?_⟩
    rw [withChecksum_length, frameHead_length]
    simpa only [List.append_assoc] using (returns_frame c hp s.toBlock).runWords
  · have hp := buildFrame_eq_none.1 hf
    exact ⟨hp, (returns_tooLarge c hp s.toBlock).runWords⟩
  · have hrun : blockRun ((frameBuildWords c p).tail.map wordEvent) s.toBlock =
        blockRun ((frameBuildWords c p).map wordEvent) s.toBlock := by
      rw [blockRun_frameBuildWords_tail, blockRun_frameBuildWords, frameBuildPart, effPlClr,
        clearPayload_eq_self hplen hlen htoo, andThen_leave]
    rw [runWords_eq_onPort, runWords_eq_onPort, onPort, hrun, ← onPort]

/-! ## The operations of `FRAME` do not see `CRC` -/

/-- Where the first outcome goes on, so does the second: the same bytes returned, and the same block but for `CRC`. -/
def SameButCrc (o o' : Effect) : Prop :=
  ∀ r, o = .next r → ∃ v, o' = .next ⟨{ r.block with crc := v }, r.bytes⟩

theorem SameButCrc.refl (o : Effect) : SameButCrc o o := fun r h => ⟨r.block.crc, h⟩

theorem sameButCrc_next (b : Block) (v : Crc) (bs : List Byte) :
    SameButCrc (.next ⟨b, bs⟩) (.next ⟨{ b with crc := v }, bs⟩) := by
  rintro r ⟨⟩
  exact ⟨v, rfl⟩

theorem sameButCrc_fault (f : Fault) (o : Effect) : SameButCrc (.fault f) o := nofun

theorem SameButCrc.andThen {o o' : Effect} {f g : Block → Effect} (ho : SameButCrc o o')
    (hfg : ∀ b v, SameButCrc (f b) (g { b with crc := v })) : SameButCrc (andThen o f) (andThen o' g) := by
  intro r h
  obtain ⟨r₁, r₂, rfl, hf, rfl⟩ := andThen_eq_next.1 h
  obtain ⟨v₁, rfl⟩ := ho r₁ rfl
  obtain ⟨v₂, hg⟩ := hfg r₁.block v₁ r₂ hf
  exact ⟨v₂, andThen_eq_next.2 ⟨_, _, rfl, hg, rfl⟩⟩

/-- What the operation does and returns does not depend on `CRC`. -/
def CrcBlind (f : Block → Effect) : Prop := ∀ b v, SameButCrc (f b) (f { b with crc := v })

theorem effPlPush_crcBlind (d : Byte) : CrcBlind (effPlPush d) := by
  intro b v
  rcases Nat.lt_trichotomy b.plen.toNat Config.maxPayload with hp | hp | hp
  · rw [effPlPush_of_lt d hp, effPlPush_of_lt (s := { b with crc := v }) d hp]
    exact sameButCrc_next _ v _
  · rw [effPlPush_of_eq d hp, effPlPush_of_eq (s := { b with crc := v }) d hp]
    exact sameButCrc_next _ v _
  · rw [effPlPush_of_gt d hp, effPlPush_of_gt (s := { b with crc := v }) d hp]
    exact sameButCrc_next _ v _

theorem buildInPlace_set_crc (c : Byte) (b : Block) (v : Crc) :
    buildInPlace c { b with crc := v } = buildInPlace c b := rfl

/-- A `BUILD` that raises keeps `CRC`; one that builds overwrites it with the frame's own checksum. -/
theorem effBuild_crcBlind (c : Byte) : CrcBlind (effBuild c) := by
  intro b v
  by_cases hp : Config.maxPayload < b.plen.toNat
  · rw [effBuild_of_gt c hp, effBuild_of_gt (s := { b with crc := v }) c hp]
    exact sameButCrc_next _ v _
  · have hsame : effBuild c { b with crc := v } = effBuild c b := by
      simp only [effBuild, hp, if_false, buildInPlace_set_crc]
    exact hsame ▸ .refl _

theorem effRdFrb_crcBlind : CrcBlind effRdFrb := by
  intro b v
  by_cases hin : b.rp.toNat < b.len.toNat
  · cases hd : b.fb.read b.rp.toNat with
    | some d =>
      rw [effRdFrb_of_lt hin hd, effRdFrb_of_lt (s := { b with crc := v }) hin hd]
      exact sameButCrc_next _ v _
    | none => exact effRdFrb_of_unwritten hin hd ▸ sameButCrc_fault _ _
  · have hout := Nat.le_of_not_lt hin
    rw [effRdFrb_of_ge hout, effRdFrb_of_ge (s := { b with crc := v }) hout]
    exact sameButCrc_next _ v _

/-- The words whose operation does not depend on `CRC`. -/
def IgnoresCrc (w : OpWord) : Prop := CrcBlind (blockStep (wordEvent w))

theorem frameBuildWords_append_ignoresCrc (c : Byte) (p : List Byte) {ws : List OpWord}
    (hws : ∀ w ∈ ws, IgnoresCrc w) : ∀ w ∈ frameBuildWords c p ++ ws, IgnoresCrc w := by
  have hplClr : IgnoresCrc (writeWord 0x4#4 0x00#8) := fun _ v => sameButCrc_next _ v _
  have hplPush (d : Byte) : IgnoresCrc (writeWord 0x5#4 d) := by
    rw [IgnoresCrc, blockStep_plPushWord]
    exact effPlPush_crcBlind d
  have hbuild : IgnoresCrc (writeWord 0x7#4 c) := by
    rw [IgnoresCrc, blockStep_buildWord]
    exact effBuild_crcBlind c
  simp only [frameBuildWords, List.forall_mem_cons, List.forall_mem_append, List.forall_mem_map]
  exact ⟨⟨⟨hplClr, fun d _ => hplPush d⟩, hbuild, List.forall_mem_nil _⟩, hws⟩

theorem rdStat_ignoresCrc : IgnoresCrc 0x0B00#13 := fun _ v => sameButCrc_next _ v _
theorem rdLen_ignoresCrc : IgnoresCrc 0x0800#13 := fun _ v => sameButCrc_next _ v _
theorem rdFrb_ignoresCrc : IgnoresCrc 0x0A00#13 := effRdFrb_crcBlind

theorem frameReadoutWords_ignoresCrc (n : Nat) : ∀ w ∈ frameReadoutWords n, IgnoresCrc w :=
  List.forall_mem_cons.2 ⟨rdStat_ignoresCrc, List.forall_mem_cons.2 ⟨rdLen_ignoresCrc, fun _ hw =>
    List.eq_of_mem_replicate hw ▸ rdFrb_ignoresCrc⟩⟩

/-! ## `CRCINIT` and `CRCUPD` put in -/

theorem blockStep_of_isCrcWord {w : OpWord} (hw : isCrcWord w) (b : Block) :
    ∃ v, blockStep (wordEvent w) b = leave { b with crc := v } := by
  rw [blockStep_word]
  rcases hw with hd | ⟨d, hd⟩
  · exact ⟨Config.crcInit, by rw [hd]; rfl⟩
  · exact ⟨crcByte b.crc d, by rw [hd]; rfl⟩

/-- The words put in write `CRC` alone, and the other words do not see it. -/
theorem blockRun_withCrcWords {ws us : List OpWord} (h : WithCrcWords ws us) (hws : ∀ w ∈ ws, IgnoresCrc w) (b : Block)
    (v : Crc) : SameButCrc (blockRun (ws.map wordEvent) b) (blockRun (us.map wordEvent) { b with crc := v }) := by
  induction h generalizing b v with
  | done => exact sameButCrc_next b v []
  | keep w _ ih =>
    obtain ⟨hw, hws⟩ := List.forall_mem_cons.1 hws
    exact (hw b v).andThen (ih hws)
  | put w hw _ ih =>
    obtain ⟨v', hstep⟩ := blockStep_of_isCrcWord hw { b with crc := v }
    rw [List.map_cons, blockRun_cons, hstep, andThen_leave]
    exact ih hws b v'

theorem Returns.withCrcWords {ws us : List OpWord} {b : Block} {bs : List Byte} (h : Returns ws b bs)
    (hws : ∀ w ∈ ws, IgnoresCrc w) (hus : WithCrcWords ws us) : Returns us b bs := by
  obtain ⟨b', hrun⟩ := h
  obtain ⟨v, hrun'⟩ := blockRun_withCrcWords hus hws b b.crc _ hrun
  exact ⟨_, hrun'⟩

/-- Settles O30: what O29's sequences return, with words put in that they do not see. -/
theorem crcOperationsDoNotDisturbAFrame : Obligations.CrcOperationsDoNotDisturbAFrame := by
  refine fun c p us s => ⟨fun f hf hus => ?_, fun hf hus => ?_⟩
  · obtain ⟨hp, rfl⟩ := buildFrame_eq_some.1 hf
    rw [withChecksum_length, frameHead_length] at hus
    have hblind := frameBuildWords_append_ignoresCrc c p (frameReadoutWords_ignoresCrc (p.length + 6))
    simpa only [List.append_assoc] using ((returns_frame c hp s.toBlock).withCrcWords hblind hus).runWords
  · have hp := buildFrame_eq_none.1 hf
    have hreads : ∀ w ∈ [0x0B00#13, 0x0800#13, 0x0A00#13], IgnoresCrc w := by
      simp only [List.forall_mem_cons]
      exact ⟨rdStat_ignoresCrc, rdLen_ignoresCrc, rdFrb_ignoresCrc, List.forall_mem_nil _⟩
    have hblind := frameBuildWords_append_ignoresCrc c p hreads
    exact ((returns_tooLarge c hp s.toBlock).withCrcWords hblind hus).runWords

end Sys2Proof.Machine
end

section
/-! The command pseudo-operations (`42_ccnet_commands.md`): the state that the build part of a command leaves, and the
command in one `exec` as its words run one by one (O31, O32, O33, O34). -/

namespace Sys2Proof.Machine

/-! ## The build part and the readout part -/

/-- `b'` is `b` after the build part of the command with code `c` and payload `p` (R120). -/
structure FrameBuilt (c : Byte) (p : List Byte) (b b' : Block) : Prop where
  plen : b'.plen.toNat = p.length
  len : b'.len.toNat = p.length + 6
  rp : b'.rp = 0#8
  toolarge : b'.toolarge = false
  crc : b'.crc = crc16 (frameHead c p)
  status : statusByte b' = 0x01#8
  frame : fbLoad b'.fb 0 b'.len.toNat = .ok (withChecksum (frameHead c p))
  rest : ∀ a, p.length + 6 ≤ a → b'.fb.read a = b.fb.read a

theorem frameBuildPart_frameBuilt (c : Byte) {p : List Byte} (h : p.length ≤ 249) (b : Block) :
    ∃ b', frameBuildPart c p b = leave b' ∧ FrameBuilt c p b b' := by
  obtain ⟨m, hbuild, hload, hrest, -⟩ := frameBuildPart_spec c h b
  have hplen : (BitVec.ofNat 8 p.length).toNat = p.length := Nat.mod_eq_of_lt (by omega)
  have hlen : (BitVec.ofNat 8 (p.length + 6)).toNat = p.length + 6 := Nat.mod_eq_of_lt (by omega)
  have hlen0 : BitVec.ofNat 8 (p.length + 6) ≠ 0#8 := fun h0 => by simp [h0] at hlen
  exact ⟨_, hbuild, {
    plen := hplen
    len := hlen
    rp := rfl
    toolarge := rfl
    crc := rfl
    status := statusByte_of_frame hlen0 (hplen.trans_le h) rfl
    frame := hlen.symm ▸ hload
    rest := hrest }⟩

/-- `STATUS` bit 0 is set, so the readout goes on to the frame's bytes (R113). -/
theorem frameReadoutPart_whole {b : Block} {f : List Byte} (hstatus : statusByte b = 0x01#8) (hrp : b.rp = 0#8)
    (hf : fbLoad b.fb 0 b.len.toNat = .ok f) :
    frameReadoutPart b = .next ⟨{ b with rp := b.len }, [statusByte b, b.len] ++ f⟩ := by
  have hvalid : (statusByte b).getLsbD 0 = true := by rw [hstatus]; rfl
  simp only [frameReadoutPart, effRdStat, effRdLen, andThen_answer, hvalid, if_true]
  rw [readFrameBytes_whole hrp hf]
  rfl

/-- A payload that fits has a frame, which both readouts return. -/
theorem runFrame_eq_blockRun (c : Byte) {p : List Byte} (h : p.length ≤ 249) (b : Block) :
    runFrame c p b = blockRun ((commandWords c p).map wordEvent) b := by
  obtain ⟨b', hbuild, hb⟩ := frameBuildPart_frameBuilt c h b
  have hwords : blockRun ((frameReadoutWords (p.length + 6)).map wordEvent) b' = frameReadoutPart b' := by
    rw [← hb.len, blockRun_frameReadoutWords hb.rp hb.frame, frameReadoutPart_whole hb.status hb.rp hb.frame]
  rw [runFrame, commandWords, List.map_append, blockRun_append, blockRun_frameBuildWords, hbuild, andThen_leave,
    andThen_leave]
  exact hwords.symm

/-- Settles O34: a command's payload fits, and at the port both sides are the same effect. -/
theorem commandIsItsSequenceOfOperations : Obligations.CommandIsItsSequenceOfOperations := by
  intro i c p hi s
  rw [exec_eq_onPort, runWords_eq_onPort, onPort, onPort, effectOf_eq_runFrame hi,
    runFrame_eq_blockRun c (length_le_of_commandOf hi)]

/-! ## What a command does -/

theorem exec_command {i : Instr} {c : Byte} {p : List Byte} (hi : commandOf i = some (c, p)) {s : State} {b : Block}
    (hbuild : frameBuildPart c p s.toBlock = leave b) (hb : FrameBuilt c p s.toBlock b) :
    exec i s = .next { s with
      toBlock := { b with rp := b.len },
      returned := s.returned ++ [0x01#8, b.len] ++ withChecksum (frameHead c p) } := by
  have heffect : effectOf i s.toBlock =
      .next ⟨{ b with rp := b.len }, [0x01#8, b.len] ++ withChecksum (frameHead c p)⟩ := by
    rw [effectOf_eq_runFrame hi, runFrame, hbuild, andThen_leave, frameReadoutPart_whole hb.status hb.rp hb.frame,
      hb.status]
  rw [exec_eq_onPort, onPort_of_next heffect, State.take, List.append_assoc]

/-- R120 for every row of the command code map. -/
theorem commandEffect {i : Instr} {c : Byte} {p : List Byte} (hi : commandOf i = some (c, p)) (s : State) :
    CommandEffect i (frameBuildWords c p) p.length (withChecksum (frameHead c p)) (crc16 (frameHead c p)) s := by
  obtain ⟨b, hbuild, hb⟩ := frameBuildPart_frameBuilt c (length_le_of_commandOf hi) s.toBlock
  have hsize : (withChecksum (frameHead c p)).length = p.length + 6 := by simp
  have hrun : runWords (frameBuildWords c p) s = .next { s with toBlock := b } := by
    rw [runWords_eq_onPort]
    exact onPort_of_leave ((blockRun_frameBuildWords c p _).trans hbuild)
  refine ⟨_, hrun, hb.plen, hb.len.trans hsize.symm, hsize, hb.rp, hb.toolarge, hb.crc, hb.status, ?_, ?_, rfl, rfl,
    exec_command hi hbuild hb⟩
  · rw [hsize, ← hb.len]
    exact hb.frame
  · rw [hsize]
    exact hb.rest

/-! ## The ten commands -/

theorem commandEffect_of_empty_payload {i : Instr} {c : Byte} {v : Crc} (hi : commandOf i = some (c, []))
    (hv : crc16 [0x02#8, 0x03#8, 0x06#8, c] = v) (s : State) :
    CommandEffect i [0x1400#13, 0x17#5 ++ c] 0 [0x02#8, 0x03#8, 0x06#8, c, crcLow v, crcHigh v] v s := by
  subst hv
  exact commandEffect hi s

/-- Settles O31: R120 with an empty payload, and the checksum of each code. -/
theorem plainCommandsProduceTheirFrames : Obligations.PlainCommandsProduceTheirFrames := fun s =>
  ⟨commandEffect_of_empty_payload (c := 0x30#8) rfl (by decide +kernel) s,
    commandEffect_of_empty_payload (c := 0x31#8) rfl (by decide +kernel) s,
    commandEffect_of_empty_payload (c := 0x33#8) rfl (by decide +kernel) s,
    commandEffect_of_empty_payload (c := 0x35#8) rfl (by decide +kernel) s,
    commandEffect_of_empty_payload (c := 0x36#8) rfl (by decide +kernel) s,
    commandEffect_of_empty_payload (c := 0x37#8) rfl (by decide +kernel) s,
    commandEffect_of_empty_payload (c := 0x00#8) rfl (by decide +kernel) s,
    commandEffect_of_empty_payload (c := 0xFF#8) rfl (by decide +kernel) s⟩

/-- The running value before the mask byte is 0xDFEF (R124). -/
theorem crc16_security (m : Byte) :
    crc16 [0x02#8, 0x03#8, 0x09#8, 0x32#8, 0x00#8, 0x00#8, m] = crcByte 0xDFEF#16 m := by
  have hhead : crc16 [0x02#8, 0x03#8, 0x09#8, 0x32#8, 0x00#8, 0x00#8] = 0xDFEF#16 := by decide +kernel
  rw [← hhead]
  exact crc16_append [0x02#8, 0x03#8, 0x09#8, 0x32#8, 0x00#8, 0x00#8] [m]

theorem crcByte_security (m : Byte) : crcByte 0xDFEF#16 m = 0x1F26#16 ^^^ crcByte 0x0000#16 m := by
  have hzero : crcByte 0xDFEF#16 0x00#8 = 0x1F26#16 := by decide +kernel
  rw [← hzero, ← crcByte_xor, BitVec.xor_zero, BitVec.zero_xor]

/-- The running value before the mask byte goes through four zero bytes to 0x0C17, apart from the checksum of the mask
and the zeros after it (R126; R88 item 4). -/
theorem crc16_enable (m : Byte) :
    crc16 [0x02#8, 0x03#8, 0x0C#8, 0x34#8, 0x00#8, 0x00#8, m, 0x00#8, 0x00#8, 0x00#8] =
      0x0C17#16 ^^^ crc16 [m, 0x00#8, 0x00#8, 0x00#8] := by
  have hzeros : crcRun (crc16 [0x02#8, 0x03#8, 0x0C#8, 0x34#8, 0x00#8, 0x00#8]) (List.replicate 4 0x00#8) =
      0x0C17#16 := by decide +kernel
  calc crc16 ([0x02#8, 0x03#8, 0x0C#8, 0x34#8, 0x00#8, 0x00#8] ++ [m, 0x00#8, 0x00#8, 0x00#8])
    _ = crcRun (crc16 [0x02#8, 0x03#8, 0x0C#8, 0x34#8, 0x00#8, 0x00#8]) [m, 0x00#8, 0x00#8, 0x00#8] := crc16_append _ _
    _ = crc16 [m, 0x00#8, 0x00#8, 0x00#8] ^^^ 0x0C17#16 := hzeros ▸ checksumIsLinearOverXor.2 _ _
    _ = 0x0C17#16 ^^^ crc16 [m, 0x00#8, 0x00#8, 0x00#8] := BitVec.xor_comm _ _

/-- Settles O32: R120 with the mask as the payload's last byte. -/
theorem securityCommandCarriesTheMask : Obligations.SecurityCommandCarriesTheMask := by
  intro m s
  have heffect := commandEffect (i := .cSecurity m) (c := 0x32#8) (p := securityPayload m) rfl s
  refine ⟨crcLow (crc16 (frameHead 0x32#8 (securityPayload m))),
    crcHigh (crc16 (frameHead 0x32#8 (securityPayload m))), ?_⟩
  rw [crcHigh_append_crcLow]
  exact ⟨rfl, crc16_security m, (crc16_security m).trans (crcByte_security m), heffect⟩

/-- Settles O33: R120 with the caller's mask at index 2 of the payload. -/
theorem enableCommandHonoursTheMask : Obligations.EnableCommandHonoursTheMask := by
  intro m s
  have heffect := commandEffect (i := .cEnable m) (c := 0x34#8) (p := enablePayload m) rfl s
  refine ⟨crcLow (crc16 (frameHead 0x34#8 (enablePayload m))),
    crcHigh (crc16 (frameHead 0x34#8 (enablePayload m))), ?_⟩
  rw [crcHigh_append_crcLow]
  exact ⟨rfl, crc16_enable m, heffect⟩

end Sys2Proof.Machine
end

section
/-! The exception FrameTooLarge (`60_exceptions.md`): what a `BUILD` that raises it does, which steps set and clear
`TOOLARGE`, and that the condition stays until `PLCLR` or reset (O35, O36, O37). -/

namespace Sys2Proof.Machine

/-! ## What a step leaves of the block -/

/-- At the port, a step under an operation word leaves what the block's step leaves. -/
theorem step_word_leaves {s t : State} {w : OpWord} {rest : List HostEvent} (hev : s.pending = wordEvent w :: rest)
    (hstep : step s = .next t) :
    t.toBlock = s.toBlock ∨ ∃ i, decodeWord w = .instr i ∧ BusOpLeaves s.toBlock i t.toBlock := by
  rw [step_cons hev] at hstep
  obtain ⟨r, hr, rfl⟩ := onPort_eq_next.1 hstep
  exact blockStep_word_leaves hr

theorem step_reset_toBlock {s t : State} {rest : List HostEvent} (hev : s.pending = .reset :: rest)
    (hstep : step s = .next t) : t.toBlock = Block.reset := by
  obtain ⟨-, -, hreset, -⟩ := stepRunsTheNextEvent s rest
  cases (hreset hev).symm.trans hstep
  rfl

/-! ## Raising the condition -/

/-- Settles O35: beyond the bound `BUILD` only raises, and what it leaves has an empty frame: `LEN` and `RP` are 0. -/
theorem frameTooLargeHasItsThreeEffects : Obligations.FrameTooLargeHasItsThreeEffects := fun c _ hp =>
  ⟨_, exec_of_leave (effBuild_of_gt c hp), rfl, exec_of_answer rfl, exec_of_answer (effRdFrb_of_ge le_rfl)⟩

/-- Of what a bus operation can leave, only that of a `BUILD` beyond the bound has `TOOLARGE` set (`10_state.md` R25). -/
theorem build_beyond_bound_of_sets_toolarge {b b' : Block} {i : Instr} (h : BusOpLeaves b i b')
    (hclear : b.toolarge = false) (hset : b'.toolarge = true) : 249 < b.plen.toNat ∧ ∃ c, i = .build c := by
  cases h with
  | raised c hp => exact ⟨hp, c, rfl⟩
  | plClr => cases hset
  | read | crcInit | crcUpd | pushed | pushDropped | built | wrPtr | rdFrb => cases hclear.symm.trans hset

/-- Settles O36: reset clears, and of the operations only `BUILD` beyond the bound sets and only `PLCLR` clears; under
the invariants `PLEN` is beyond the bound at 250 alone. -/
theorem tooLargeSetByBuildClearedByPlClrAndReset : Obligations.TooLargeSetByBuildClearedByPlClrAndReset := by
  intro s t e rest hinv hev he hstep hne
  rcases he with rfl | ⟨w, rfl⟩
  · exact .inr ⟨congrArg Block.toolarge (step_reset_toBlock hev hstep), .inl rfl⟩
  rcases step_word_leaves hev hstep with hsame | ⟨i, hi, hleaves⟩
  · exact absurd (congrArg Block.toolarge hsame) hne
  cases ht : t.toolarge with
  | true =>
    have hs : s.toolarge = false := by simpa [ht] using hne.symm
    obtain ⟨hp, c, rfl⟩ := build_beyond_bound_of_sets_toolarge hleaves hs ht
    exact .inl ⟨rfl, hinv.plen_eq_250 hp, w, c, rfl, hi⟩
  | false =>
    have hs : s.toolarge = true := by simpa [ht] using hne.symm
    exact .inr ⟨rfl, .inr ⟨w, rfl, hi.trans (congrArg _ (eq_plClr_of_clears_toolarge hleaves hs ht))⟩⟩

/-! ## Until it is left -/

theorem step_word_keeps_toolarge {s t : State} {w : OpWord} {rest : List HostEvent}
    (hev : s.pending = wordEvent w :: rest) (hw : decodeWord w ≠ .instr .plClr) (hstep : step s = .next t)
    (hset : s.toolarge = true) : t.toolarge = true := by
  rcases step_word_leaves hev hstep with hsame | ⟨i, hi, hleaves⟩
  · exact (congrArg Block.toolarge hsame).trans hset
  · refine Bool.eq_true_of_not_eq_false fun hclear => hw ?_
    rw [hi, eq_plClr_of_clears_toolarge hleaves hset hclear]

/-- Raised again, the condition finds `TOOLARGE` and `LEN` as it would leave them (R146). -/
theorem raiseFrameTooLarge_of_raised {b : Block} (htoo : b.toolarge = true) (hlen : b.len = 0#8) :
    raiseFrameTooLarge b = { b with rp := 0#8 } := by
  rw [raiseFrameTooLarge, ← htoo, ← hlen]

/-- Settles O37: the condition stays under every word but `PLCLR`, and beside it the invariants have `PLEN` at 250 and
no frame. -/
theorem tooLargeStaysUntilPlClrOrReset : Obligations.TooLargeStaysUntilPlClrOrReset := by
  intro s hinv htoo
  obtain ⟨hplen, hlen⟩ := hinv.tooLargeState htoo
  refine ⟨fun t w rest hev hw hstep => ?_, fun c => ?_, ⟨_, exec_of_leave rfl, rfl, rfl⟩, fun t rest hev hstep => ?_⟩
  · have ht := step_word_keeps_toolarge hev hw hstep htoo
    obtain ⟨hplen', -⟩ := (everyStepKeepsInvariants s t hinv hstep).tooLargeState ht
    exact ⟨ht, hplen'⟩
  · have hbeyond : Config.maxPayload < s.plen.toNat := by simp [hplen, Config.maxPayload]
    have hraise := effBuild_of_gt c hbeyond
    rw [raiseFrameTooLarge_of_raised htoo hlen] at hraise
    exact exec_of_leave hraise
  · exact congrArg Block.toolarge (step_reset_toBlock hev hstep)

end Sys2Proof.Machine
end

section
/-! What a run can observe (`70_reset_and_hazards.md` R175): no operation lets a byte of `FB` outside the frame and the
payload gathered show (O49). -/

namespace Sys2Proof.Machine

/-! ## Blocks and outcomes alike in all that can show -/

theorem SameObservable.exists_fb {b b' : Block} (h : SameObservable b b') :
    ∃ m : Memory, b' = { b with fb := m } ∧ ∀ a, observable b a → b.fb.read a = m.read a := by
  obtain ⟨hcrc, hplen, hlen, hrp, htoo, hfb⟩ := h
  exact ⟨b'.fb, by rw [hcrc, hplen, hlen, hrp, htoo], hfb⟩

theorem SameObservable.set_fb {b : Block} {m : Memory} (hm : ∀ a, observable b a → b.fb.read a = m.read a) :
    SameObservable b { b with fb := m } :=
  ⟨rfl, rfl, rfl, rfl, rfl, hm⟩

/-- Without its frame a block shows the payload gathered alone. -/
theorem observable_of_no_frame {b : Block} {a : Nat} (h : observable { b with len := 0#8 } a) : observable b a :=
  .inr (h.resolve_left (Nat.not_lt_zero a))

/-- The same kind of outcome: the same stop, or the same bytes returned with blocks alike in all that can show. -/
inductive SameOutcome : Effect → Effect → Prop where
  | next {b b' : Block} (bs : List Byte) (h : SameObservable b b') : SameOutcome (.next ⟨b, bs⟩) (.next ⟨b', bs⟩)
  | fault (f : Fault) : SameOutcome (.fault f) (.fault f)
  | refused (f : Refusal) : SameOutcome (.refused f) (.refused f)

theorem SameObservable.leave {b b' : Block} (h : SameObservable b b') : SameOutcome (leave b) (leave b') := .next [] h

theorem SameObservable.answer {b b' : Block} (h : SameObservable b b') (v : Byte) :
    SameOutcome (answer v b) (answer v b') := .next [v] h

theorem SameOutcome.after {o o' : Effect} (h : SameOutcome o o') (bs : List Byte) :
    SameOutcome (Reply.after bs o) (Reply.after bs o') := by
  cases h with
  | next cs hb => exact .next (bs ++ cs) hb
  | fault f => exact .fault f
  | refused f => exact .refused f

/-- What the operation does and returns does not depend on the bytes of `FB` that cannot show. -/
def ShowsOnlyObservable (f : Block → Effect) : Prop :=
  ∀ (b : Block) (m : Memory), (∀ a, observable b a → b.fb.read a = m.read a) → SameOutcome (f b) (f { b with fb := m })

theorem ShowsOnlyObservable.sameOutcome {f : Block → Effect} (hf : ShowsOnlyObservable f) {b b' : Block}
    (h : SameObservable b b') : SameOutcome (f b) (f b') := by
  obtain ⟨m, rfl, hm⟩ := h.exists_fb
  exact hf b m hm

theorem SameOutcome.andThen {o o' : Effect} (h : SameOutcome o o') {f : Block → Effect} (hf : ShowsOnlyObservable f) :
    SameOutcome (andThen o f) (andThen o' f) := by
  cases h with
  | next bs hb => exact (hf.sameOutcome hb).after bs
  | fault r => exact .fault r
  | refused r => exact .refused r

/-! ## The operations -/

theorem leave_showsOnlyObservable : ShowsOnlyObservable leave := fun _ _ hm =>
  (SameObservable.set_fb hm).leave

theorem effPlClr_showsOnlyObservable : ShowsOnlyObservable effPlClr := fun _ _ _ =>
  SameObservable.leave ⟨rfl, rfl, rfl, rfl, rfl, fun a ha => by
    simp only [observable, clearPayload_len, clearPayload_plen, BitVec.toNat_zero] at ha
    omega⟩

/-- Both blocks get the byte at the same offset, the one offset that comes to be observable; a dropped byte adds none. -/
theorem effPlPush_showsOnlyObservable (v : Byte) : ShowsOnlyObservable (effPlPush v) := by
  intro b m hm
  rcases Nat.lt_trichotomy b.plen.toNat 249 with hp | hp | hp
  · rw [effPlPush_of_lt v hp, effPlPush_of_lt (s := { b with fb := m }) v hp]
    refine SameObservable.leave ⟨rfl, rfl, rfl, rfl, rfl, fun a ha => ?_⟩
    by_cases hpush : a = pushOffset b
    · exact hpush ▸ (Memory.read_write_same b.fb _ v).trans (Memory.read_write_same m _ v).symm
    · have hsucc : (b.plen + 1#8).toNat = b.plen.toNat + 1 :=
        BitVec.toNat_add_of_lt (by simp; omega)
      have hold : observable b a := by
        simp only [observable, hsucc, pushOffset, BitVec.toNat_zero] at hpush ha ⊢
        omega
      exact (Memory.read_write_ne b.fb v hpush).trans ((hm a hold).trans (Memory.read_write_ne m v hpush).symm)
  · rw [effPlPush_of_eq v hp, effPlPush_of_eq (s := { b with fb := m }) v hp]
    refine SameObservable.leave ⟨rfl, rfl, rfl, rfl, rfl, fun a ha => hm a ?_⟩
    simp only [observable, Config.plenSaturated, BitVec.toNat_ofNat] at ha ⊢
    omega
  · rw [effPlPush_of_gt v hp, effPlPush_of_gt (s := { b with fb := m }) v hp]
    exact SameObservable.leave ⟨rfl, rfl, rfl, rfl, rfl, fun a ha => hm a (observable_of_no_frame ha)⟩

/-- Two memories that load alike read alike at the offsets loaded. -/
theorem read_eq_of_fbLoad {m m' : Memory} {k : Nat} {bs : List Byte} (hk : k ≤ Config.maxFrame)
    (h : fbLoad m 0 k = .ok bs) (h' : fbLoad m' 0 k = .ok bs) {a : Nat} (ha : a < k) : m.read a = m'.read a := by
  have hk0 : 0 + k ≤ Config.maxFrame := by rwa [Nat.zero_add]
  obtain ⟨-, hread⟩ := (fbLoad_eq_ok hk0).1 h
  obtain ⟨-, hread'⟩ := (fbLoad_eq_ok hk0).1 h'
  simpa using (hread a ha).trans (hread' a ha).symm

/-- `BUILD` reads the payload alone, which is observable, and all that is observable after it is the frame it makes of
that payload. -/
theorem effBuild_showsOnlyObservable (c : Byte) : ShowsOnlyObservable (effBuild c) := by
  intro b m hm
  by_cases hover : Config.maxPayload < b.plen.toNat
  · rw [effBuild_of_gt c hover, effBuild_of_gt (s := { b with fb := m }) c hover]
    exact SameObservable.leave ⟨rfl, rfl, rfl, rfl, rfl, fun a ha => hm a (observable_of_no_frame ha)⟩
  · have hp : b.plen.toNat ≤ 249 := Nat.le_of_not_lt hover
    have hsame : fbLoad b.fb 4 b.plen.toNat = fbLoad m 4 b.plen.toNat :=
      fbLoad_congr fun i hi => hm (4 + i) (.inr (by omega))
    cases hload : fbLoad b.fb 4 b.plen.toNat with
    | error f =>
      rw [effBuild_of_load_error c hp hload,
        effBuild_of_load_error (b := { b with fb := m }) c hp (hsame.symm.trans hload)]
      exact .fault f
    | ok p =>
      obtain ⟨m₁, hbuild₁, hframe₁, -⟩ := effBuild_of_le c hp hload
      obtain ⟨m₂, hbuild₂, hframe₂, -⟩ := effBuild_of_le (s := { b with fb := m }) c hp (hsame.symm.trans hload)
      rw [hbuild₁, hbuild₂]
      refine SameObservable.leave ⟨rfl, rfl, rfl, rfl, rfl, fun a ha => ?_⟩
      have hn : buildLength b = b.plen.toNat + 6 := rfl
      have hlen : (BitVec.ofNat 8 (buildLength b)).toNat = buildLength b := Nat.mod_eq_of_lt (by omega)
      have hin : a < buildLength b := by
        simp only [observable, hlen] at ha
        omega
      exact read_eq_of_fbLoad (by simp only [Config.maxFrame]; omega) hframe₁ hframe₂ hin

/-- Inside the frame the byte at `RP` is observable; outside it no byte is read. -/
theorem effRdFrb_showsOnlyObservable : ShowsOnlyObservable effRdFrb := by
  intro b m hm
  by_cases hin : b.rp.toNat < b.len.toNat
  · have hsame : b.fb.read b.rp.toNat = m.read b.rp.toNat := hm _ (.inl hin)
    cases hd : b.fb.read b.rp.toNat with
    | some d =>
      rw [effRdFrb_of_lt hin hd, effRdFrb_of_lt (s := { b with fb := m }) hin (hsame.symm.trans hd)]
      exact (SameObservable.set_fb (b := { b with rp := b.rp + 1#8 }) hm).answer d
    | none =>
      rw [effRdFrb_of_unwritten hin hd, effRdFrb_of_unwritten (b := { b with fb := m }) hin (hsame.symm.trans hd)]
      exact .fault _
  · have hout := Nat.le_of_not_lt hin
    rw [effRdFrb_of_ge hout, effRdFrb_of_ge (s := { b with fb := m }) hout]
    exact (SameObservable.set_fb hm).answer _

/-! ## The commands -/

theorem pushAll_showsOnlyObservable (p : List Byte) : ShowsOnlyObservable (pushAll p) := by
  induction p with
  | nil => exact leave_showsOnlyObservable
  | cons v p ih => exact fun b m hm => (effPlPush_showsOnlyObservable v b m hm).andThen ih

theorem readFrameBytes_showsOnlyObservable (n : Nat) : ShowsOnlyObservable (readFrameBytes n) := by
  induction n with
  | zero => exact leave_showsOnlyObservable
  | succ n ih => exact fun b m hm => (effRdFrb_showsOnlyObservable b m hm).andThen ih

theorem frameBuildPart_showsOnlyObservable (c : Byte) (p : List Byte) : ShowsOnlyObservable (frameBuildPart c p) :=
  fun b m hm => (effPlClr_showsOnlyObservable b m hm).andThen fun b₁ m₁ hm₁ =>
    (pushAll_showsOnlyObservable p b₁ m₁ hm₁).andThen (effBuild_showsOnlyObservable c)

/-- `STATUS` and `LEN`, which decide how far the readout goes, are not in `FB`. -/
theorem frameReadoutPart_showsOnlyObservable : ShowsOnlyObservable frameReadoutPart := by
  intro b m hm
  have hstatus : statusByte { b with fb := m } = statusByte b := rfl
  simp only [frameReadoutPart, effRdStat, effRdLen, andThen_answer, hstatus]
  refine (SameOutcome.after ?_ _).after _
  split
  · exact readFrameBytes_showsOnlyObservable _ b m hm
  · exact leave_showsOnlyObservable b m hm

theorem runFrame_showsOnlyObservable (c : Byte) (p : List Byte) : ShowsOnlyObservable (runFrame c p) := fun b m hm =>
  (frameBuildPart_showsOnlyObservable c p b m hm).andThen frameReadoutPart_showsOnlyObservable

/-! ## Every step -/

theorem effectOf_showsOnlyObservable (i : Instr) : ShowsOnlyObservable (effectOf i) := by
  cases i with
  | plClr => exact effPlClr_showsOnlyObservable
  | plPush v => exact effPlPush_showsOnlyObservable v
  | build c => exact effBuild_showsOnlyObservable c
  | rdFrb => exact effRdFrb_showsOnlyObservable
  | crcInit | crcUpd | wrPtr => exact fun _ _ hm => SameObservable.leave ⟨rfl, rfl, rfl, rfl, rfl, hm⟩
  | rdCrcL | rdCrcH | rdPlen | rdLen | rdPtr | rdStat =>
    exact fun _ _ hm => (SameObservable.set_fb hm).answer _
  | cReset | cStatus | cSecurity | cPoll | cEnable | cStack | cReturn | cIdent | cAck | cNsc =>
    exact runFrame_showsOnlyObservable _ _

theorem effectOfDecoded_showsOnlyObservable (d : Decoded) : ShowsOnlyObservable (effectOfDecoded d) := by
  cases d with
  | instr i => exact effectOf_showsOnlyObservable i
  | reservedRead a => exact fun _ _ hm => (SameObservable.set_fb hm).answer _
  | reservedWrite a v => exact leave_showsOnlyObservable

theorem blockStep_showsOnlyObservable (e : HostEvent) : ShowsOnlyObservable (blockStep e) := by
  intro b m hm
  cases e with
  | reset => exact SameObservable.leave ⟨rfl, rfl, rfl, rfl, rfl, fun _ _ => rfl⟩
  | present c =>
    cases hd : decode c with
    | ok d =>
      rw [blockStep_present hd, blockStep_present hd]
      exact effectOfDecoded_showsOnlyObservable d b m hm
    | error r =>
      simp only [blockStep, hd]
      exact .refused _

/-- `SameOutcome` at the port: the same stop, or states alike in all that can show, with the same port. -/
def SameStep (o o' : Out) : Prop :=
  (∀ s, o = .next s → ∃ t, o' = .next t ∧ SameObservable s.toBlock t.toBlock ∧ s.toPort = t.toPort) ∧
  (∀ r, o = .fault r → o' = .fault r) ∧ ∀ r, o = .refused r → o' = .refused r

theorem sameStep_next {s t : State} (h : SameObservable s.toBlock t.toBlock) (hport : s.toPort = t.toPort) :
    SameStep (.next s) (.next t) :=
  ⟨fun _ hs => by cases hs; exact ⟨t, rfl, h, hport⟩, nofun, nofun⟩

/-- An operation that shows only what is observable does so at the port, to which the same bytes go. -/
theorem ShowsOnlyObservable.onPort {f : Block → Effect} (hf : ShowsOnlyObservable f) {s t : State}
    (h : SameObservable s.toBlock t.toBlock) (hport : s.toPort = t.toPort) : SameStep (onPort f s) (onPort f t) := by
  have ho := hf.sameOutcome h
  unfold Machine.onPort
  generalize f s.toBlock = o at ho ⊢
  generalize f t.toBlock = o' at ho ⊢
  cases ho with
  | next bs hb => exact sameStep_next hb (by simp only [State.take, hport])
  | fault r => exact ⟨nofun, fun _ => id, nofun⟩
  | refused r => exact ⟨nofun, nofun, fun _ => id⟩

/-- Settles O49: the two ports hold the same next event, under which the block's step shows only what is observable. -/
theorem unobservableBytesStayUnobservable : Obligations.UnobservableBytesStayUnobservable := by
  intro s t h hport
  change SameStep (step s) (step t)
  have hpending : s.pending = t.pending := congrArg Port.pending hport
  cases hev : s.pending with
  | nil =>
    rw [step_nil hev, step_nil (hpending.symm.trans hev)]
    exact sameStep_next h hport
  | cons e rest =>
    rw [step_cons hev, step_cons (hpending.symm.trans hev)]
    have hreturned : s.returned = t.returned := congrArg Port.returned hport
    exact (blockStep_showsOnlyObservable e).onPort h (congrArg (Port.mk rest) hreturned)

end Sys2Proof.Machine
end

section
/-! The hazards of `BUILD` (`70_reset_and_hazards.md` R164, R166) and the block right after reset (R161, R163): O24, O40,
O41. -/

namespace Sys2Proof.Machine

/-! ## `BUILD` over the payload kept -/

/-- `t` is `s` after a `BUILD c` over the payload `p`: the frame stands, `CRC` is its checksum, and the payload can still
be read where it was. -/
structure Built (c : Byte) (p : List Byte) (s t : State) : Prop where
  size : p.length = s.plen.toNat
  exec : exec (.build c) s = .next t
  plen : t.plen = s.plen
  crc : t.crc = crc16 (frameHead c p)
  len : t.len.toNat = p.length + 6
  frame : fbLoad t.fb 0 t.len.toNat = .ok (withChecksum (frameHead c p))
  payload : fbLoad t.fb 4 t.plen.toNat = .ok p

theorem exists_built (c : Byte) {s : State} {p : List Byte} (hp : s.plen.toNat ≤ 249)
    (hpay : fbLoad s.fb 4 s.plen.toNat = .ok p) : ∃ t, Built c p s t := by
  obtain ⟨hsize, -⟩ := (fbLoad_eq_ok (by simp only [Config.maxFrame]; omega)).1 hpay
  obtain ⟨m, hbuild, hload, hkept, -⟩ := effBuild_of_le c hp hpay
  have hn : buildLength s.toBlock = s.plen.toNat + 6 := rfl
  have hlen : (BitVec.ofNat 8 (buildLength s.toBlock)).toNat = buildLength s.toBlock := Nat.mod_eq_of_lt (by omega)
  have hkeep : fbLoad m 4 s.plen.toNat = fbLoad s.fb 4 s.plen.toNat :=
    fbLoad_congr fun i _ => hkept (4 + i) (by omega) (by omega) (by omega)
  exact ⟨_, {
    size := hsize
    exec := exec_of_leave hbuild
    plen := rfl
    crc := rfl
    len := hsize ▸ hlen
    frame := hlen.symm ▸ hload
    payload := hkeep.trans hpay }⟩

/-- A `BUILD` within the bound goes on only over a payload that stands in `FB`. -/
theorem built_of_exec {c : Byte} {s t : State} (hp : s.plen.toNat ≤ 249) (hexec : exec (.build c) s = .next t) :
    ∃ p, Built c p s t := by
  obtain ⟨r, hr, -⟩ := onPort_eq_next.1 ((exec_eq_onPort (.build c) s).symm.trans hexec)
  obtain ⟨hover, -⟩ | ⟨-, p, hpay⟩ := effBuild_next hr
  · exact absurd hover hp.not_gt
  · obtain ⟨t', ht⟩ := exists_built c hp hpay
    cases ht.exec.symm.trans hexec
    exact ⟨p, ht⟩

/-- The last two bytes of the frame are those of `CRC`, low byte first (R102). -/
theorem Built.checksum {c : Byte} {p : List Byte} {s t : State} (h : Built c p s t) :
    t.fb.read (t.len.toNat - 2) = some (crcLow t.crc) ∧ t.fb.read (t.len.toNat - 1) = some (crcHigh t.crc) := by
  have hmax : 0 + t.len.toNat ≤ Config.maxFrame := by
    rw [Nat.zero_add]
    exact Nat.le_of_lt_succ t.len.isLt
  obtain ⟨-, hread⟩ := (fbLoad_eq_ok hmax).1 h.frame
  have hlen := h.len
  have hend (j : Nat) (hj : j < 2) : t.fb.read (p.length + 4 + j) =
      [crcLow (crc16 (frameHead c p)), crcHigh (crc16 (frameHead c p))][j]? := by
    rw [← withChecksum_frameHead_checksum, List.getElem?_drop, ← hread _ (by omega), Nat.zero_add]
  rw [h.crc, show t.len.toNat - 2 = p.length + 4 + 0 by omega, show t.len.toNat - 1 = p.length + 4 + 1 by omega]
  exact ⟨hend 0 (by decide), hend 1 (by decide)⟩

/-- Settles O24: beyond the bound `BUILD` only raises; within it, it leaves the payload where the next one finds it. -/
theorem buildOverwritesCrcAndKeepsThePayload : Obligations.BuildOverwritesCrcAndKeepsThePayload := by
  refine fun c s t hexec => ⟨fun hp => ?_, fun hp => ?_⟩
  · cases (exec_of_leave (i := .build c) (effBuild_of_gt c hp)).symm.trans hexec
    rfl
  · obtain ⟨p, ht⟩ := built_of_exec hp hexec
    have hframe (c' : Byte) : buildFrame c' p = some (withChecksum (frameHead c' p)) :=
      buildFrame_of_le (ht.size.trans_le hp)
    obtain ⟨hlow, hhigh⟩ := ht.checksum
    refine ⟨hlow, hhigh, p, _, ht.size, hframe c, ht.frame, fun c' => ?_⟩
    obtain ⟨u, hu⟩ := exists_built c' (ht.plen ▸ hp) ht.payload
    exact ⟨u, _, hu.exec, hframe c', hu.frame⟩

/-! ## Reset -/

/-- Settles O40: the step under the reset input leaves the block of `10_state.md` R33, and the port as it was. -/
theorem resetGivesTheResetState : Obligations.ResetGivesTheResetState := by
  intro s rest hev
  obtain ⟨-, -, hreset, -⟩ := stepRunsTheNextEvent s rest
  have hstatus : statusByte Block.reset = 0x00#8 := by decide
  exact ⟨_, hreset hev, rfl, rfl, rfl, rfl, rfl, hstatus, Memory.read_nil, rfl, rfl⟩

/-- A run of one word is the operation it decodes to. -/
theorem runWords_singleton {w : OpWord} {i : Instr} (hw : decodeWord w = .instr i) (s : State) :
    runWords [w] s = exec i s := by
  have hstep : blockRun ([w].map wordEvent) = effectOf i := by
    funext b
    rw [List.map_singleton, blockRun_cons, blockStep_word, hw]
    exact andThen_leave_right _
  rw [runWords_eq_onPort, hstep, exec_eq_onPort]

/-- Settles O41: no word stops a run from reset, `CRC` starts from 0, and the empty payload makes the Reset frame. -/
theorem readyRightAfterReset : Obligations.ReadyRightAfterReset := by
  refine ⟨fun w => ?_, fun b => ?_, ?_⟩
  · obtain ⟨t, ht, -⟩ := invariantsHoldOfEveryReachableState [wordEvent w] fun e he =>
      .inr ⟨w, List.mem_singleton.1 he⟩
    exact ⟨t, ht⟩
  · exact ⟨_, (runWords_singleton (decodeWord_crcUpdWord b) _).trans (exec_crcUpd b _), rfl⟩
  · obtain ⟨t, ht⟩ := exists_built 0x30#8 (s := State.reset) (p := []) (Nat.zero_le _) rfl
    have hresetFrame : withChecksum (frameHead 0x30#8 []) = [0x02#8, 0x03#8, 0x06#8, 0x30#8, 0x41#8, 0xB3#8] := by
      decide +kernel
    exact ⟨t, (runWords_singleton (decodeWord_append 0x17#5 0x30#8) _).trans ht.exec, hresetFrame ▸ ht.frame⟩

end Sys2Proof.Machine
end
